-- ==== Sys2Proof/Config.lean ====
section
/-! DEFINITION. What one implementation fixes: `ARENA_SIZE` (spec/00_scope.md R8, spec/92_eei_decisions.md D1). The spec leaves
no other value open, so there is no free value here. -/

namespace Sys2Proof

/-- The parameters of one machine. The bounds are R8's own: `1 ≤ ARENA_SIZE ≤ 2^62`. -/
structure Config where
  /-- `ARENA_SIZE`, the number of words of memory. -/
  arenaSize : Nat
  /-- R8: the memory has at least one word. -/
  arenaPos : 1 ≤ arenaSize
  /-- R8: the memory has at most 2^62 words. -/
  arenaLe : arenaSize ≤ 4611686018427387904
  deriving DecidableEq, Repr

/-- The configuration of `State.reset`.
DESIGN CHOICE (log 3): R8 says only "tens of millions of words"; this is 2^26. -/
def Config.standard : Config := ⟨67108864, by decide, by decide⟩

end Sys2Proof
end

