-- ==== Sys2Proof/Word.lean ====
section
/-! DEFINITION. The machine word: a signed 64-bit integer (spec/00_scope.md R7, R11). -/

namespace Sys2Proof

/-- A word (R7): 64 bits, read as a signed two's-complement integer by `BitVec.toInt`.
PRESUMED (log 1): the spec takes the two's-complement range from general knowledge (G1). -/
abbrev Word := BitVec 64

/-- `WORD_MIN` of R7, which is −2^63. -/
abbrev wordMin : Int := -9223372036854775808

/-- `WORD_MAX` of R7, which is 2^63 − 1. -/
abbrev wordMax : Int := 9223372036854775807

/-- `InWord(v)` of R11: the exact integer `v` can be stored in a word. -/
abbrev InWord (v : Int) : Prop := wordMin ≤ v ∧ v ≤ wordMax

/-- The word that stores `v`; it is used only where `InWord v` has been tested (R11). -/
def Word.ofInt (v : Int) : Word := BitVec.ofInt 64 v

end Sys2Proof
end

