-- ==== Sys2Proof/Syntax.lean ====
section
/-! DEFINITION. The instructions and their parameters as syntax (spec/00_scope.md R2, R3, R17; spec/30_encoding.md R304 to R306). -/

namespace Sys2Proof

/-- The three addressing modes (R3). -/
inductive Mode where
  | position
  | immediate
  | relative
  deriving DecidableEq, Repr

/-- A decoded parameter (R17, R304): an operand word tagged with its mode. -/
inductive Param where
  /-- `Pos(a)`: the operand word is an address. -/
  | pos (a : Word)
  /-- `Imm(v)`: the operand word is the value. -/
  | imm (v : Word)
  /-- `Rel(r)`: the operand word is an offset from the relative base. -/
  | rel (r : Word)
  deriving DecidableEq, Repr

/-- The ten opcodes (R2, R306), under the spec's mnemonics. -/
inductive Opcode where
  | add | mul | inp | out | jt | jf | lt | eq | arb | hlt
  deriving DecidableEq, Repr

/-- An instruction word taken apart: the opcode with the mode of each of its parameters (R301). -/
inductive Head where
  | add (a b d : Mode)
  | mul (a b d : Mode)
  | inp (d : Mode)
  | out (p : Mode)
  | jt (c t : Mode)
  | jf (c t : Mode)
  | lt (a b d : Mode)
  | eq (a b d : Mode)
  | arb (p : Mode)
  | hlt
  deriving DecidableEq, Repr

/-- The instructions, one constructor per row of spec/opcode_table.json, with the parameter roles of R305. -/
inductive Instr where
  /-- ADD (R401): sources `a`, `b`, destination `d`. -/
  | add (a b d : Param)
  /-- MUL (R402): sources `a`, `b`, destination `d`. -/
  | mul (a b d : Param)
  /-- IN (R423): destination `d`. -/
  | inp (d : Param)
  /-- OUT (R424): source `p`. -/
  | out (p : Param)
  /-- JT (R440): condition `c`, target `t`, both sources. -/
  | jt (c t : Param)
  /-- JF (R441): condition `c`, target `t`, both sources. -/
  | jf (c t : Param)
  /-- LT (R403): sources `a`, `b`, destination `d`. -/
  | lt (a b d : Param)
  /-- EQ (R404): sources `a`, `b`, destination `d`. -/
  | eq (a b d : Param)
  /-- ARB (R460): source `p`. -/
  | arb (p : Param)
  /-- HLT (R480): no parameter. -/
  | hlt
  deriving DecidableEq, Repr

/-- The mode a parameter is tagged with. -/
def Param.mode : Param → Mode
  | .pos _ => .position
  | .imm _ => .immediate
  | .rel _ => .relative

/-- The operand word a parameter carries (R304). -/
def Param.word : Param → Word
  | .pos a => a
  | .imm v => v
  | .rel r => r

/-- The opcode of an instruction. -/
def Instr.opcode : Instr → Opcode
  | .add _ _ _ => .add
  | .mul _ _ _ => .mul
  | .inp _ => .inp
  | .out _ => .out
  | .jt _ _ => .jt
  | .jf _ _ => .jf
  | .lt _ _ _ => .lt
  | .eq _ _ _ => .eq
  | .arb _ => .arb
  | .hlt => .hlt

/-- The parameters of an instruction, in order (R305). -/
def Instr.params : Instr → List Param
  | .add a b d => [a, b, d]
  | .mul a b d => [a, b, d]
  | .inp d => [d]
  | .out p => [p]
  | .jt c t => [c, t]
  | .jf c t => [c, t]
  | .lt a b d => [a, b, d]
  | .eq a b d => [a, b, d]
  | .arb p => [p]
  | .hlt => []

/-- The source parameters of an instruction, in order (R305). -/
def Instr.sources : Instr → List Param
  | .add a b _ => [a, b]
  | .mul a b _ => [a, b]
  | .inp _ => []
  | .out p => [p]
  | .jt c t => [c, t]
  | .jf c t => [c, t]
  | .lt a b _ => [a, b]
  | .eq a b _ => [a, b]
  | .arb p => [p]
  | .hlt => []

/-- The destination parameter of an instruction, if it has one (R305). -/
def Instr.dst? : Instr → Option Param
  | .add _ _ d => some d
  | .mul _ _ d => some d
  | .inp d => some d
  | .out _ => none
  | .jt _ _ => none
  | .jf _ _ => none
  | .lt _ _ d => some d
  | .eq _ _ d => some d
  | .arb _ => none
  | .hlt => none

/-- The arity of each opcode (R306). -/
def Opcode.arity : Opcode → Nat
  | .add => 3
  | .mul => 3
  | .inp => 1
  | .out => 1
  | .jt => 2
  | .jf => 2
  | .lt => 3
  | .eq => 3
  | .arb => 1
  | .hlt => 0

/-- The length of an instruction in words, `1 + arity`: its opcode alone determines it (R300, R313). -/
def Instr.length (i : Instr) : Nat := 1 + i.opcode.arity

end Sys2Proof
end

