-- ==== Sys2Proof/WellFormed.lean ====
section
/-! DEFINITION. Which instructions are well formed: those whose destination, if they have one, is not Immediate
(spec/20_memory.md R221: "As a destination it is illegal"; spec/30_encoding.md R306, the 37 words marked †). -/

namespace Sys2Proof

/-- A parameter that may name a destination: Position or Relative (R221). -/
def Param.writable : Param → Bool
  | .pos _ => true
  | .imm _ => false
  | .rel _ => true

/-- An instruction is well formed when its destination, if it has one, can be written (R221, R603).
The decoder accepts the others too (R307) and they run: they raise `InvalidWriteTarget` when they come to write (log 22). -/
def Instr.wellFormed (i : Instr) : Bool :=
  match i.dst? with
  | some d => d.writable
  | none => true

end Sys2Proof
end

