-- ==== Sys2Proof/Decode.lean ====
section
/-! DEFINITION. The decoder, total on any words and rejecting by name, and the encoder (spec/30_encoding.md R300 to R313, R322).
Intcode words are taken apart by decimal digits (spec/00_scope.md R12), not by bit fields. -/

namespace Sys2Proof

/-- Why a word is no instruction word: the sub-causes of MalformedInstruction (R601). -/
inductive Malformed where
  /-- The word is negative (R310). -/
  | negativeWord
  /-- The two low digits are no opcode (R308). -/
  | badOpcode (op : Nat)
  /-- Parameter `k`'s mode digit is `d`, which is no mode (R309). -/
  | badMode (k d : Nat)
  /-- A digit above the last parameter's mode digit is not 0 (R311). -/
  | excessDigits
  deriving DecidableEq, Repr

/-- `digit(w, k)` of R12: the k-th decimal digit. -/
def digit (w k : Nat) : Nat := w / 10 ^ k % 10

/-- The opcode numbers (R306). -/
def Opcode.code : Opcode → Nat
  | .add => 1
  | .mul => 2
  | .inp => 3
  | .out => 4
  | .jt => 5
  | .jf => 6
  | .lt => 7
  | .eq => 8
  | .arb => 9
  | .hlt => 99

/-- The opcode with a given number, if there is one (R306, R308). -/
def Opcode.ofCode? (n : Nat) : Option Opcode :=
  if n = 1 then some .add
  else if n = 2 then some .mul
  else if n = 3 then some .inp
  else if n = 4 then some .out
  else if n = 5 then some .jt
  else if n = 6 then some .jf
  else if n = 7 then some .lt
  else if n = 8 then some .eq
  else if n = 9 then some .arb
  else if n = 99 then some .hlt
  else none

/-- The mode digits (R303). -/
def Mode.toDigit : Mode → Nat
  | .position => 0
  | .immediate => 1
  | .relative => 2

/-- The mode with a given digit, if there is one (R303, R309). -/
def Mode.ofDigit? (d : Nat) : Option Mode :=
  if d = 0 then some .position
  else if d = 1 then some .immediate
  else if d = 2 then some .relative
  else none

/-- Tag an operand word with a mode (R304). -/
def Mode.param : Mode → Word → Param
  | .position, a => .pos a
  | .immediate, v => .imm v
  | .relative, r => .rel r

/-- The mode of parameter `k` of the instruction word `w`: digit `k + 1` (R303, R307). -/
def decodeMode (w k : Nat) : Except Malformed Mode :=
  match Mode.ofDigit? (digit w (k + 1)) with
  | some m => .ok m
  | none => .error (.badMode k (digit w (k + 1)))

/-- The last check of R307: nothing above the mode digit of the last of `n` parameters (R311). -/
def checkExcess (w n : Nat) (h : Head) : Except Malformed Head :=
  if w / 10 ^ (n + 2) = 0 then .ok h else .error .excessDigits

/-- The digits of an instruction word with one parameter. -/
def decodeModes1 (w : Nat) (mk : Mode → Head) : Except Malformed Head :=
  match decodeMode w 1 with
  | .error e => .error e
  | .ok m => checkExcess w 1 (mk m)

/-- The digits of an instruction word with two parameters. -/
def decodeModes2 (w : Nat) (mk : Mode → Mode → Head) : Except Malformed Head :=
  match decodeMode w 1 with
  | .error e => .error e
  | .ok m₁ =>
    match decodeMode w 2 with
    | .error e => .error e
    | .ok m₂ => checkExcess w 2 (mk m₁ m₂)

/-- The digits of an instruction word with three parameters. -/
def decodeModes3 (w : Nat) (mk : Mode → Mode → Mode → Head) : Except Malformed Head :=
  match decodeMode w 1 with
  | .error e => .error e
  | .ok m₁ =>
    match decodeMode w 2 with
    | .error e => .error e
    | .ok m₂ =>
      match decodeMode w 3 with
      | .error e => .error e
      | .ok m₃ => checkExcess w 3 (mk m₁ m₂ m₃)

/-- The digits of a non-negative instruction word whose opcode is `op`: mode digits in parameter order, then the excess (R307). -/
def decodeModes (op : Opcode) (w : Nat) : Except Malformed Head :=
  match op with
  | .add => decodeModes3 w .add
  | .mul => decodeModes3 w .mul
  | .inp => decodeModes1 w .inp
  | .out => decodeModes1 w .out
  | .jt => decodeModes2 w .jt
  | .jf => decodeModes2 w .jf
  | .lt => decodeModes3 w .lt
  | .eq => decodeModes3 w .eq
  | .arb => decodeModes1 w .arb
  | .hlt => checkExcess w 0 .hlt

/-- The part of `Decode` (R307) that reads the instruction word alone, its checks in R307's order. -/
def decodeHead (w : Word) : Except Malformed Head :=
  if w.toInt < 0 then .error .negativeWord
  else
    match Opcode.ofCode? (w.toNat % 100) with
    | none => .error (.badOpcode (w.toNat % 100))
    | some op => decodeModes op w.toNat

/-- The rest of `Decode` (R307): fetch the operand words in order, `get k` being parameter `k`'s, and tag them. -/
def Head.build {ε : Type} (h : Head) (get : Nat → Except ε Word) : Except ε Instr :=
  match h with
  | .add a b d => do return .add (a.param (← get 1)) (b.param (← get 2)) (d.param (← get 3))
  | .mul a b d => do return .mul (a.param (← get 1)) (b.param (← get 2)) (d.param (← get 3))
  | .inp d => do return .inp (d.param (← get 1))
  | .out p => do return .out (p.param (← get 1))
  | .jt c t => do return .jt (c.param (← get 1)) (t.param (← get 2))
  | .jf c t => do return .jf (c.param (← get 1)) (t.param (← get 2))
  | .lt a b d => do return .lt (a.param (← get 1)) (b.param (← get 2)) (d.param (← get 3))
  | .eq a b d => do return .eq (a.param (← get 1)) (b.param (← get 2)) (d.param (← get 3))
  | .arb p => do return .arb (p.param (← get 1))
  | .hlt => .ok .hlt

/-- Why a list of words does not start with an instruction. -/
inductive DecodeError where
  /-- The first word is no instruction word. -/
  | malformed (m : Malformed)
  /-- Word `k` of the instruction is missing from the list. -/
  | truncated (k : Nat)
  deriving DecidableEq, Repr

/-- Word `k` of a list that holds an instruction from its word 0. -/
def wordAt (ws : List Word) (k : Nat) : Except DecodeError Word :=
  match ws[k]? with
  | some w => .ok w
  | none => .error (.truncated k)

/-- Decode the instruction at the front of a list of words, and give the words after it (R300, R307). -/
def decode (ws : List Word) : Except DecodeError (Instr × List Word) :=
  match wordAt ws 0 with
  | .error e => .error e
  | .ok w =>
    match decodeHead w with
    | .error m => .error (.malformed m)
    | .ok h =>
      match h.build (wordAt ws) with
      | .error e => .error e
      | .ok i => .ok (i, ws.drop i.length)

/-- The instruction word that the bits of a table number stand for, word `k` of it: 64 bits a word, the first word lowest
(DESIGN CHOICE, log 12). -/
def tableWord (nbits w k : Nat) : Word := BitVec.ofNat 64 (w % 2 ^ nbits / 2 ^ (64 * k))

/-- An instruction given as one number, laid out as the four words of the longest instruction. -/
def tableWords (nbits w : Nat) : List Word :=
  [tableWord nbits w 0, tableWord nbits w 1, tableWord nbits w 2, tableWord nbits w 3]

/-- The instruction the decoder reads from an instruction given as one number. -/
def decodeTableWord (nbits w : Nat) : Option Instr :=
  match decode (tableWords nbits w) with
  | .ok (i, _) => some i
  | .error _ => none

/-! The encoder, from the same tables (R301, R306, R322). -/

/-- `(m1 + 10·m2 + 100·m3)·100 + opcode` (R301, R322). -/
def packWord (op : Opcode) (m₁ m₂ m₃ : Nat) : Word :=
  BitVec.ofNat 64 ((m₁ + 10 * m₂ + 100 * m₃) * 100 + op.code)

/-- The opcode of an instruction word taken apart. -/
def Head.opcode : Head → Opcode
  | .add _ _ _ => .add
  | .mul _ _ _ => .mul
  | .inp _ => .inp
  | .out _ => .out
  | .jt _ _ => .jt
  | .jf _ _ => .jf
  | .lt _ _ _ => .lt
  | .eq _ _ _ => .eq
  | .arb _ => .arb
  | .hlt => .hlt

/-- The modes of an instruction word taken apart, in parameter order. -/
def Head.modes : Head → List Mode
  | .add a b d => [a, b, d]
  | .mul a b d => [a, b, d]
  | .inp d => [d]
  | .out p => [p]
  | .jt c t => [c, t]
  | .jf c t => [c, t]
  | .lt a b d => [a, b, d]
  | .eq a b d => [a, b, d]
  | .arb p => [p]
  | .hlt => []

/-- The mode digit of parameter `k` (from 1), where an absent parameter counts as 0 (R303, R322). -/
def Head.modeDigit (h : Head) (k : Nat) : Nat :=
  match h.modes[k - 1]? with
  | some m => m.toDigit
  | none => 0

/-- The instruction word (R301, R322). -/
def Head.encode (h : Head) : Word := packWord h.opcode (h.modeDigit 1) (h.modeDigit 2) (h.modeDigit 3)

/-- The instruction word's parts of an instruction. -/
def Instr.head : Instr → Head
  | .add a b d => .add a.mode b.mode d.mode
  | .mul a b d => .mul a.mode b.mode d.mode
  | .inp d => .inp d.mode
  | .out p => .out p.mode
  | .jt c t => .jt c.mode t.mode
  | .jf c t => .jf c.mode t.mode
  | .lt a b d => .lt a.mode b.mode d.mode
  | .eq a b d => .eq a.mode b.mode d.mode
  | .arb p => .arb p.mode
  | .hlt => .hlt

/-- The words of an instruction: the instruction word, then the operand words in parameter order (R300, R322). -/
def encode (i : Instr) : List Word := i.head.encode :: i.params.map Param.word

/-- The instruction words with a given opcode: one for each choice of its parameters' modes (R306). -/
def Opcode.heads (op : Opcode) : List Head :=
  let ms : List Mode := [.position, .immediate, .relative]
  let one (mk : Mode → Head) : List Head := ms.map mk
  let two (mk : Mode → Mode → Head) : List Head := ms.flatMap fun b => ms.map fun a => mk a b
  let three (mk : Mode → Mode → Mode → Head) : List Head :=
    ms.flatMap fun c => ms.flatMap fun b => ms.map fun a => mk a b c
  match op with
  | .add => three .add
  | .mul => three .mul
  | .inp => one .inp
  | .out => one .out
  | .jt => two .jt
  | .jf => two .jf
  | .lt => three .lt
  | .eq => three .eq
  | .arb => one .arb
  | .hlt => [.hlt]

/-- The 136 legal instruction words of R306, in opcode order. -/
def legalHeads : List Head :=
  [Opcode.add, .mul, .inp, .out, .jt, .jf, .lt, .eq, .arb, .hlt].flatMap Opcode.heads

/-- An instruction word with an Immediate destination: the 37 words marked † in R306. -/
def Head.dagger : Head → Bool
  | .add _ _ d => d == .immediate
  | .mul _ _ d => d == .immediate
  | .inp d => d == .immediate
  | .out _ => false
  | .jt _ _ => false
  | .jf _ _ => false
  | .lt _ _ d => d == .immediate
  | .eq _ _ d => d == .immediate
  | .arb _ => false
  | .hlt => false

end Sys2Proof
end

