-- ==== Sys2Proof/Machine/State.lean ====
section
/-! DEFINITION. The state of the core as plain data, and the state after reset (spec/10_state.md R100 to R113). -/

namespace Sys2Proof.Machine

/-- The messages of the I/O protocol (spec/00_scope.md R18). -/
inductive Message where
  | data (v : Word)
  | requestInput
  | shutdown
  deriving DecidableEq, Repr

/-- What the environment may answer to a receive (spec/41_io.md R422). -/
inductive Answer where
  /-- A message; only `Data(v)` is a good one. -/
  | message (m : Message)
  /-- `Closed`: no data will ever come. -/
  | closed
  deriving DecidableEq, Repr

/-- A step at the port: the labels of R120 other than `τ`. -/
inductive PortEvent where
  /-- `send(m)`: the environment accepted message `m`. -/
  | send (m : Message)
  /-- `recv(a)`: the environment delivered answer `a`. -/
  | recv (a : Answer)
  deriving DecidableEq, Repr

/-- A label of the step relation (R120). -/
inductive Label where
  /-- `τ`: an internal step that touches no port. -/
  | tau
  /-- A step at the port. -/
  | port (e : PortEvent)
  deriving DecidableEq, Repr

/-- Which access left the memory (spec/60_exceptions.md R602). -/
inductive AccessKind where
  | fetch
  | operand
  | read
  | write
  deriving DecidableEq, Repr

/-- Which operation overflowed (R604). -/
inductive ArithOp where
  | add
  | mul
  | arb
  deriving DecidableEq, Repr

/-- The six fault causes with what each records beside `ip` and `word` (R600 to R606). -/
inductive FaultDetail where
  /-- Code 1 (R601): the word at `ip` is no instruction word. -/
  | malformedInstruction (m : Malformed)
  /-- Code 2 (R602): the exact address and the kind of access. -/
  | outOfBoundsAccess (a : Int) (kind : AccessKind)
  /-- Code 3 (R603): the index of the Immediate destination. -/
  | invalidWriteTarget (param : Nat)
  /-- Code 4 (R604): the operation and its exact result. -/
  | arithmeticOverflow (op : ArithOp) (result : Int)
  /-- Code 5 (R605): the message received instead of `Data(v)`. -/
  | inputNotData (m : Message)
  /-- Code 6 (R606): the environment answered `Closed`. -/
  | starvedInput
  deriving DecidableEq, Repr

/-- A fault record (R111, R607). Its `code` field is determined by `detail` and is computed (`FaultRecord.code`, log 9). -/
structure FaultRecord where
  /-- The address of the faulting instruction's instruction word, or the bad fetch address. -/
  ip : Word
  /-- The instruction word, absent when it could not be fetched. -/
  word : Option Word
  /-- What the fault's code names. -/
  detail : FaultDetail
  deriving DecidableEq, Repr

/-- The `phase` register (R110), with the values latched in it (R112). -/
inductive Phase where
  /-- The core will fetch and execute the instruction at `ip`. -/
  | ready
  /-- An OUT offers `Data(v)`. -/
  | offerOut (v : Word)
  /-- An IN with destination `d` offers `RequestInput`. -/
  | offerReq (d : Param)
  /-- That IN waits for an answer. -/
  | awaitIn (d : Param)
  /-- A HLT offers `Shutdown`. -/
  | offerShutdown
  /-- The run ended normally. -/
  | halted
  /-- The run ended with fault record `f`. -/
  | faulted (f : FaultRecord)
  deriving DecidableEq, Repr

/-- The word memory (R108, R200) as (address, word) cells: addresses strictly rising, no cell holding 0, which is what an
unlisted address reads as (R113: "zero-initialized beyond the program"). A cell is a word because the core has no bytes
(R202, log 2). -/
abbrev Memory := List (Nat × Word)

/-- The canonical form of a memory. -/
abbrev Memory.wf (m : Memory) : Prop := m.Pairwise (fun c d => c.1 < d.1) ∧ ∀ c ∈ m, c.2 ≠ 0

/-- The state: the four components of R100 to R113, the parameter of R8, and three fields of the model's own. -/
structure State where
  /-- The machine's parameter, fixed for a run (R8, log 3). -/
  config : Config
  /-- `mem` (R108). -/
  mem : Memory
  /-- `ip` (R101). -/
  ip : Word
  /-- `rb` (R105). -/
  rb : Word
  /-- `phase` (R110). -/
  phase : Phase
  /-- The model's own: how many offered messages the environment will still accept (R425, log 4). -/
  accepts : Nat
  /-- The model's own: the answers the environment will still give, oldest first (R425, log 4). -/
  answers : List Answer
  /-- The model's own: the port steps taken so far, oldest first (R481, log 5). -/
  trace : List PortEvent
  deriving DecidableEq, Repr

/-- Why there is no step for ever (R123). A fault an instruction raises is NOT one of these: it is a next state in phase
`faulted` (R611, log 8). -/
inductive Fault where
  /-- `step`, in phase `halted`: the run ended normally and has no step of any kind (R123). Safe (log 7). -/
  | halted
  /-- `step`, in phase `faulted f`: the run ended with fault record `f` and has no step of any kind (R123). Safe (log 7). -/
  | faulted (f : FaultRecord)
  deriving DecidableEq, Repr

/-- Why there is no step now. -/
inductive Refusal where
  /-- `exec`, for an instruction without a meaning, by its mnemonic: none is left. Safe. -/
  | notModelled (mnemonic : String)
  /-- `step`, in a waiting phase whose environment gives no matching event: the core is stuck, not ended (R122, R650).
  Safe (log 6). -/
  | environmentSilent
  deriving DecidableEq, Repr

/-- The state right after reset (R113, R700) with nothing loaded. A program is loaded from outside the machine (R702, log 10):
`State.start` is the reset state of a loaded program. The model's own fields hold the values of logs 3 and 4. -/
def State.reset : State where
  config := Config.standard
  mem := []
  ip := 0
  rb := 0
  phase := .ready
  accepts := 0
  answers := []
  trace := []

end Sys2Proof.Machine
end

