-- ==== Sys2Proof/Machine/Ops.lean ====
section
/-! DEFINITION. The named operations over memory and registers, and taking a fault (spec/00_scope.md R13 to R15,
spec/20_memory.md R200 to R211, spec/60_exceptions.md R600 to R613). -/

namespace Sys2Proof.Machine

/-- What an address that no cell lists reads as (R113, R206). -/
def Memory.unlisted : Word := 0

/-- `mem[a]` (R14). -/
def Memory.read : Memory → Nat → Word
  | [], _ => Memory.unlisted
  | (b, u) :: m, a => if a = b then u else Memory.read m a

/-- `mem[a] <- v` (R14), keeping the canonical form. -/
def Memory.write : Memory → Nat → Word → Memory
  | [], a, v => if v = Memory.unlisted then [] else [(a, v)]
  | (b, u) :: m, a, v =>
    if a < b then
      if v = Memory.unlisted then (b, u) :: m else (a, v) :: (b, u) :: m
    else if a = b then
      if v = Memory.unlisted then m else (a, v) :: m
    else (b, u) :: Memory.write m a v

/-- Whether the exact address `a` exists (R9, R207): `0 ≤ a < ARENA_SIZE`. -/
abbrev State.inBounds (s : State) (a : Int) : Prop := 0 ≤ a ∧ a < s.config.arenaSize

/-- `MemRead(a, 1)` (R14) at the exact address `a`; outside the memory it raises OutOfBoundsAccess (R207). -/
def memRead (a : Int) (kind : AccessKind) (s : State) : Except FaultDetail Word :=
  if s.inBounds a then .ok (s.mem.read a.toNat) else .error (.outOfBoundsAccess a kind)

/-- `MemWrite(a, 1, v)` (R14) at the exact address `a`; outside the memory it raises OutOfBoundsAccess and changes nothing (R207). -/
def memWrite (a : Int) (v : Word) (s : State) : Except FaultDetail State :=
  if s.inBounds a then .ok { s with mem := s.mem.write a.toNat v } else .error (.outOfBoundsAccess a .write)

/-- `ip <- ip + n`: go past an instruction of `n` words (R102). -/
def State.advance (n : Nat) (s : State) : State := { s with ip := s.ip + BitVec.ofNat 64 n }

/-- `ip <- t` (R13), unchecked (R103, R442). -/
def State.jump (t : Word) (s : State) : State := { s with ip := t }

/-- `rb <- v` (R13). -/
def State.setRb (v : Word) (s : State) : State := { s with rb := v }

/-- `phase <- p` (R110). -/
def State.setPhase (p : Phase) (s : State) : State := { s with phase := p }

/-- Record a port step in the trace (R481). -/
def State.logPort (e : PortEvent) (s : State) : State := { s with trace := s.trace ++ [e] }

/-- The fault codes (R600). -/
def FaultDetail.code : FaultDetail → Nat
  | .malformedInstruction _ => 1
  | .outOfBoundsAccess _ _ => 2
  | .invalidWriteTarget _ => 3
  | .arithmeticOverflow _ _ => 4
  | .inputNotData _ => 5
  | .starvedInput => 6

/-- The `code` field of a fault record (R111). -/
def FaultRecord.code (f : FaultRecord) : Nat := f.detail.code

/-- The instruction word at `ip`, absent when `ip` is no address: the `word` field of a fault record (R111, R602, log 9). -/
def State.fetchedWord (s : State) : Option Word :=
  if s.inBounds s.ip.toInt then some (s.mem.read s.ip.toInt.toNat) else none

/-- The record of a fault raised in a state (R607). -/
def State.faultRecord (d : FaultDetail) (s : State) : FaultRecord := { ip := s.ip, word := s.fetchedWord, detail := d }

/-- TAKING A FAULT, the one shared operation (R15, R611): `phase <- Faulted(f)` and nothing else. There is no handler and no
return from it (R612), so no operation stands beside it. -/
def State.raise (d : FaultDetail) (s : State) : State := s.setPhase (.faulted (s.faultRecord d))

/-- How an instruction ends: with the state it computed, or with its fault raised in the state it started from, so that nothing
it computed takes effect (R15, R611). -/
def State.settle (s : State) : Except FaultDetail State → State
  | .ok t => t
  | .error d => s.raise d

/-- Put words at consecutive addresses from `a` on; a word whose address does not exist is left out. -/
def State.placeWords : Nat → List Word → State → State
  | _, [], s => s
  | a, w :: ws, s =>
    State.placeWords (a + 1) ws (if a < s.config.arenaSize then { s with mem := s.mem.write a w } else s)

/-- Where `n` words can be placed for the next fetch: at `ip` if they fit there, else at address 0 (log 11). -/
def State.fetchBase (n : Nat) (s : State) : Nat :=
  if 0 ≤ s.ip.toInt ∧ s.ip.toInt + n ≤ s.config.arenaSize then s.ip.toInt.toNat else 0

/-- Words placed where the next step fetches, in phase `Ready`, with `ip` there (log 11). -/
def State.withWords (ws : List Word) (s : State) : State :=
  State.placeWords (s.fetchBase ws.length) ws
    { s with ip := BitVec.ofNat 64 (s.fetchBase ws.length), phase := .ready }

end Sys2Proof.Machine
end

