-- ==== Sys2Proof/Machine/Flags.lean ====
section
/-! DEFINITION. The results of the arithmetic and comparison instructions. The core has no flags, condition codes or predicates
(spec/10_state.md R106), so this file holds what other machines compute as flags: the overflow test, which raises a fault
(spec/40_alu.md R405), and the comparison results, which are words (R403, R404). -/

namespace Sys2Proof.Machine

/-- The exact result `v` of `op` as a word, or ArithmeticOverflow if it does not fit (R405, R604). -/
def narrow (op : ArithOp) (v : Int) : Except FaultDetail Word :=
  if InWord v then .ok (Word.ofInt v) else .error (.arithmeticOverflow op v)

/-- `f_ADD` (R401). -/
def fAdd (a b : Word) : Except FaultDetail Word := narrow .add (a.toInt + b.toInt)

/-- `f_MUL` (R402). -/
def fMul (a b : Word) : Except FaultDetail Word := narrow .mul (a.toInt * b.toInt)

/-- `f_LT` (R403): signed, parameter 1 on the left. PRESUMED (log 15): the spec supplies the direction from general knowledge (G2). -/
def fLt (a b : Word) : Except FaultDetail Word := .ok (if a.toInt < b.toInt then 1 else 0)

/-- `f_EQ` (R404). -/
def fEq (a b : Word) : Except FaultDetail Word := .ok (if a = b then 1 else 0)

/-- ARB's new relative base (R460). -/
def fArb (rb v : Word) : Except FaultDetail Word := narrow .arb (rb.toInt + v.toInt)

end Sys2Proof.Machine
end

