-- ==== Sys2Proof/Machine/Operands.lean ====
section
/-! DEFINITION. Operand resolution, every addressing mode (spec/20_memory.md R220 to R225). -/

namespace Sys2Proof.Machine

/-- The exact effective address of a parameter when the relative base is `rb`, if it has one: `a` (R220), or `rb + r`, never
wrapped (R222). An Immediate parameter has none (R221). -/
def effAddr (rb : Word) : Param → Option Int
  | .pos a => some a.toInt
  | .imm _ => none
  | .rel r => some (rb.toInt + r.toInt)

/-- `ResolveSrc(p)` (R223). -/
def resolveSrc (p : Param) (s : State) : Except FaultDetail Word :=
  match p with
  | .pos a => memRead a.toInt .read s
  | .imm v => .ok v
  | .rel r => memRead (s.rb.toInt + r.toInt) .read s

/-- `WriteDst(p, k, v)` (R224), for parameter `k` of the instruction. -/
def writeDst (p : Param) (k : Nat) (v : Word) (s : State) : Except FaultDetail State :=
  match effAddr s.rb p with
  | none => .error (.invalidWriteTarget k)
  | some a => memWrite a v s

end Sys2Proof.Machine
end

