-- ==== Sys2Proof/Machine/Alu.lean ====
section
/-! DEFINITION. ADD, MUL, LT, EQ (spec/40_alu.md). -/

namespace Sys2Proof.Machine

/-- The common execution order of R400: both sources, the result, the write, then `ip + 4`. -/
def alu (f : Word → Word → Except FaultDetail Word) (a b d : Param) (s : State) : Except FaultDetail State := do
  let x ← resolveSrc a s
  let y ← resolveSrc b s
  let r ← f x y
  let t ← writeDst d 3 r s
  return t.advance 4

/-- ADD (R401). -/
def execAdd (a b d : Param) (s : State) : Host.Outcome State Fault Refusal := .next (s.settle (alu fAdd a b d s))

/-- MUL (R402). -/
def execMul (a b d : Param) (s : State) : Host.Outcome State Fault Refusal := .next (s.settle (alu fMul a b d s))

/-- LT (R403). -/
def execLt (a b d : Param) (s : State) : Host.Outcome State Fault Refusal := .next (s.settle (alu fLt a b d s))

/-- EQ (R404). -/
def execEq (a b d : Param) (s : State) : Host.Outcome State Fault Refusal := .next (s.settle (alu fEq a b d s))

end Sys2Proof.Machine
end

