-- ==== Sys2Proof/Machine/Halt.lean ====
section
/-! DEFINITION. HLT (spec/44_halt.md): its `τ` step. Its port step is in Machine/Port.lean. -/

namespace Sys2Proof.Machine

/-- HLT (R480), its `τ` step: `phase <- OfferShutdown`; `ip` stays at the HLT. -/
def execHlt (s : State) : Host.Outcome State Fault Refusal := .next (s.setPhase .offerShutdown)

end Sys2Proof.Machine
end

