-- ==== Sys2Proof/Machine/Io.lean ====
section
/-! DEFINITION. IN and OUT (spec/41_io.md): what each does in its `τ` step. Their port steps are in Machine/Port.lean. -/

namespace Sys2Proof.Machine

/-- IN (R423), its `τ` step: `phase <- OfferReq(pd)`. -/
def execInp (d : Param) (s : State) : Host.Outcome State Fault Refusal := .next (s.setPhase (.offerReq d))

/-- OUT (R424), its `τ` step: resolve the source and offer it; `ip` stays until the environment accepts. -/
def execOut (p : Param) (s : State) : Host.Outcome State Fault Refusal :=
  .next (s.settle do
    let v ← resolveSrc p s
    return s.setPhase (.offerOut v))

end Sys2Proof.Machine
end

