-- ==== Sys2Proof/Machine/Jumps.lean ====
section
/-! DEFINITION. JT and JF (spec/42_jumps.md). -/

namespace Sys2Proof.Machine

/-- Both jumps (R440, R441): the condition, then the target, whether or not the jump is taken; `taken` is the test on the
condition. -/
def condJump (taken : Word → Bool) (c t : Param) (s : State) : Except FaultDetail State := do
  let x ← resolveSrc c s
  let y ← resolveSrc t s
  return if taken x then s.jump y else s.advance 3

/-- JT (R440): the jump is taken when the condition is not 0. -/
def execJt (c t : Param) (s : State) : Host.Outcome State Fault Refusal :=
  .next (s.settle (condJump (fun x => decide (x ≠ 0)) c t s))

/-- JF (R441): the jump is taken when the condition is 0. -/
def execJf (c t : Param) (s : State) : Host.Outcome State Fault Refusal :=
  .next (s.settle (condJump (fun x => decide (x = 0)) c t s))

end Sys2Proof.Machine
end

