-- ==== Sys2Proof/Machine/RelBase.lean ====
section
/-! DEFINITION. ARB (spec/43_relbase.md). -/

namespace Sys2Proof.Machine

/-- ARB (R460): a Relative source uses the old `rb`; the new one is the exact sum, or ArithmeticOverflow. -/
def execArb (p : Param) (s : State) : Host.Outcome State Fault Refusal :=
  .next (s.settle do
    let v ← resolveSrc p s
    let b ← fArb s.rb v
    return (s.setRb b).advance 2)

end Sys2Proof.Machine
end

