-- ==== Sys2Proof/Machine/Dispatch.lean ====
section
/-! DEFINITION. One arm per instruction (spec/opcode_table.json). -/

namespace Sys2Proof.Machine

/-- The `τ` step of a decoded instruction (spec/10_state.md R121). -/
def exec (i : Instr) (s : State) : Host.Outcome State Fault Refusal :=
  match i with
  | .add a b d => Sys2Proof.Machine.execAdd a b d s
  | .mul a b d => Sys2Proof.Machine.execMul a b d s
  | .inp d => Sys2Proof.Machine.execInp d s
  | .out p => Sys2Proof.Machine.execOut p s
  | .jt c t => Sys2Proof.Machine.execJt c t s
  | .jf c t => Sys2Proof.Machine.execJf c t s
  | .lt a b d => Sys2Proof.Machine.execLt a b d s
  | .eq a b d => Sys2Proof.Machine.execEq a b d s
  | .arb p => Sys2Proof.Machine.execArb p s
  | .hlt => Sys2Proof.Machine.execHlt s

end Sys2Proof.Machine
end

