-- ==== Sys2Proof/Machine/Fetch.lean ====
section
/-! DEFINITION. `Decode(ip)` in memory (spec/30_encoding.md R307). -/

namespace Sys2Proof.Machine

/-- `Decode(ip)` (R307): the instruction word, its digits, then the operand words by increasing address. It reads memory and
changes nothing. -/
def fetch (s : State) : Except FaultDetail Instr :=
  match memRead s.ip.toInt .fetch s with
  | .error d => .error d
  | .ok w =>
    match decodeHead w with
    | .error m => .error (.malformedInstruction m)
    | .ok h => h.build fun k => memRead (s.ip.toInt + k) .operand s

end Sys2Proof.Machine
end

