-- ==== Sys2Proof/Machine/Port.lean ====
section
/-! DEFINITION. The port steps `send(m)` and `recv(a)` (spec/41_io.md R420 to R424, spec/44_halt.md R480). -/

namespace Sys2Proof.Machine

/-- The message a phase offers, if it offers one (R421). -/
def Phase.offer? : Phase → Option Message
  | .ready => none
  | .offerOut v => some (.data v)
  | .offerReq _ => some .requestInput
  | .awaitIn _ => none
  | .offerShutdown => some .shutdown
  | .halted => none
  | .faulted _ => none

/-- The core after the environment has accepted its offer: OUT goes past itself (R424), IN starts to wait (R423), HLT ends the
run (R480). A phase that offers nothing has no such step and is left alone. -/
def State.afterSend (s : State) : State :=
  match s.phase with
  | .offerOut _ => (s.advance 2).setPhase .ready
  | .offerReq d => s.setPhase (.awaitIn d)
  | .offerShutdown => s.setPhase .halted
  | .ready => s
  | .awaitIn _ => s
  | .halted => s
  | .faulted _ => s

/-- The step `send(m)` (R120, R421). -/
def State.accept (m : Message) (s : State) : State := (s.logPort (.send m)).afterSend

/-- What an IN with destination `d` does with the answer `a` (R423): store it, or fault. -/
def storeAnswer (d : Param) (a : Answer) (s : State) : Except FaultDetail State :=
  match a with
  | .message (.data v) => do
    let t ← writeDst d 1 v s
    return (t.advance 2).setPhase .ready
  | .message .shutdown => .error (.inputNotData .shutdown)
  | .message .requestInput => .error (.inputNotData .requestInput)
  | .closed => .error .starvedInput

/-- The step `recv(a)` of an IN with destination `d` (R120, R423). The answer is consumed even if the IN faults (R611). -/
def State.receive (d : Param) (a : Answer) (s : State) : State :=
  (s.logPort (.recv a)).settle (storeAnswer d a (s.logPort (.recv a)))

/-- In a phase that offers `m`: the environment accepts it if it will still accept one; else the core holds (R421, R122). -/
def offerStep (m : Message) (s : State) : Host.Outcome State Fault Refusal :=
  match s.accepts with
  | 0 => .refused .environmentSilent
  | k + 1 => .next (State.accept m { s with accepts := k })

/-- In `AwaitIn(d)`: the environment gives its next answer if it has one; else the core holds (R422, R122). -/
def awaitStep (d : Param) (s : State) : Host.Outcome State Fault Refusal :=
  match s.answers with
  | [] => .refused .environmentSilent
  | a :: as => .next (State.receive d a { s with answers := as })

end Sys2Proof.Machine
end

