-- ==== Sys2Proof/Machine/Relation.lean ====
section
/-! DEFINITION. The labelled step relation of the spec, with no environment in it (spec/10_state.md R120 to R124). -/

namespace Sys2Proof.Machine

/-- The `τ` step of phase `Ready` (R121): decode at `ip`, then execute; a decoding fault is raised. -/
def tauStep (s : State) : Host.Outcome State Fault Refusal :=
  match fetch s with
  | .ok i => exec i s
  | .error d => .next (s.raise d)

/-- The next state under a label, if that step is enabled (R124). It does not touch `accepts` and `answers`, which belong to the
environment. -/
def labelledStep (l : Label) (s : State) : Option State :=
  match l with
  | .tau =>
    match s.phase with
    | .ready =>
      match tauStep s with
      | .next t => some t
      | .fault _ => none
      | .refused _ => none
    | _ => none
  | .port (.send m) => if s.phase.offer? = some m then some (s.accept m) else none
  | .port (.recv a) =>
    match s.phase with
    | .awaitIn d => some (s.receive d a)
    | _ => none

end Sys2Proof.Machine
end

