-- ==== Sys2Proof/Machine/Step.lean ====
section
/-! DEFINITION. One step of the machine with its environment (spec/10_state.md R121 to R124). -/

namespace Sys2Proof.Machine

/-- One step: the `τ` step in `Ready` (R121); in a waiting phase the port step that the environment lets happen (R122); none in
`Halted` and `Faulted` (R123). -/
def step (s : State) : Host.Outcome State Fault Refusal :=
  match s.phase with
  | .ready => tauStep s
  | .offerOut v => offerStep (.data v) s
  | .offerReq _ => offerStep .requestInput s
  | .offerShutdown => offerStep .shutdown s
  | .awaitIn d => awaitStep d s
  | .halted => .fault .halted
  | .faulted f => .fault (.faulted f)

/-- The state with an instruction, given as one number, placed where the next step fetches (logs 10, 11, 12). -/
def State.withFetchWord (s : State) (nbits w : Nat) : State := s.withWords (tableWords nbits w)

end Sys2Proof.Machine
end

