-- ==== Sys2Proof/Machine/Load.lean ====
section
/-! DEFINITION. Loading the program text and the reset of a loaded machine (spec/70_reset_and_hazards.md R700 to R704). -/

namespace Sys2Proof.Machine

/-- Why a program text is refused, so that no run exists (R703). DESIGN CHOICE (log 23): R703 gives no reasons; the model names the
first of its items that holds. -/
inductive LoadRefusal where
  /-- Item 1: the trimmed text is empty or holds an item that is no signed decimal integer. -/
  | badText
  /-- Item 2: an integer is outside the word range. -/
  | outOfRange
  /-- Item 3: there are more integers than words of memory. -/
  | tooLong
  deriving DecidableEq, Repr

/-- The text without the white space around it (R702). PRESUMED (log 13): white space is space, tab, carriage return and line feed. -/
def trimText (cs : List Char) : List Char :=
  ((cs.dropWhile Char.isWhitespace).reverse.dropWhile Char.isWhitespace).reverse

/-- The pieces of a text between the separators: always at least one. -/
def splitText (sep : Char) : List Char → List (List Char)
  | [] => [[]]
  | c :: cs =>
    if c = sep then [] :: splitText sep cs
    else
      match splitText sep cs with
      | [] => [[c]]
      | g :: gs => (c :: g) :: gs

/-- The value of a decimal digit. -/
def digitValue? (c : Char) : Option Nat :=
  if 48 ≤ c.toNat ∧ c.toNat ≤ 57 then some (c.toNat - 48) else none

/-- The value of decimal digits read after the value `acc`. -/
def digitsFrom? (acc : Nat) : List Char → Option Nat
  | [] => some acc
  | c :: cs =>
    match digitValue? c with
    | some d => digitsFrom? (acc * 10 + d) cs
    | none => none

/-- One or more decimal digits. -/
def natText? : List Char → Option Nat
  | [] => none
  | c :: cs => digitsFrom? 0 (c :: cs)

/-- A signed decimal integer: an optional `-`, then one or more digits (R702). -/
def intText? : List Char → Option Int
  | [] => none
  | c :: cs =>
    if c = '-' then (natText? cs).map fun n : Nat => -(n : Int)
    else (natText? (c :: cs)).map fun n : Nat => (n : Int)

/-- The integers of a program text (R702). -/
def programText? (cs : List Char) : Option (List Int) := (splitText ',' (trimText cs)).mapM intText?

/-- The words of a program's integers, or why they are refused (R703, items 2 and 3). DESIGN CHOICE (log 23): where both items hold,
the reason is item 2's. -/
def programWords (cfg : Config) (vs : List Int) : Except LoadRefusal (List Word) :=
  if vs.all fun v => decide (InWord v) then
    if vs.length ≤ cfg.arenaSize then .ok (vs.map Word.ofInt) else .error .tooLong
  else .error .outOfRange

/-- The words of a program text, or why it is refused (R702, R703): item 1 is looked at first (log 23). -/
def loadText (cfg : Config) (cs : List Char) : Except LoadRefusal (List Word) :=
  match programText? cs with
  | none => .error .badText
  | some vs => programWords cfg vs

/-- The memory that holds given words from address `a` on and 0 elsewhere (R113). -/
def Memory.ofWords : Nat → List Word → Memory
  | _, [] => []
  | a, w :: ws => if w = Memory.unlisted then Memory.ofWords (a + 1) ws else (a, w) :: Memory.ofWords (a + 1) ws

/-- The state right after the reset of a machine with a loaded program (R113, R700), in an environment that will accept
`accepts` offers and give the answers `answers` (log 4). -/
def State.start (cfg : Config) (prog : List Word) (accepts : Nat) (answers : List Answer) : State where
  config := cfg
  mem := Memory.ofWords 0 prog
  ip := 0
  rb := 0
  phase := .ready
  accepts := accepts
  answers := answers
  trace := []

end Sys2Proof.Machine
end

