-- ==== Sys2Proof/Machine/Assembly.lean ====
section
/-! DEFINITION. The spec's assembly language and its pseudo-instructions (spec/30_encoding.md R320 to R324). It has no effect on
the machine (D17, D18): it turns text into the words of a program. -/

namespace Sys2Proof.Machine

/-- JMP (R324): `JT #1, t`. -/
def pseudoJmp (t : Param) : Instr := .jt (.imm 1) t

/-- MOV (R324): `ADD s, #0, d`. -/
def pseudoMov (p d : Param) : Instr := .add p (.imm 0) d

/-- NOP (R324): `JF #1, #0`. -/
def pseudoNop : Instr := .jf (.imm 1) (.imm 0)

/-- A number in an operand: a signed decimal integer, a label with an offset, or the negation of either (R320, R323). -/
inductive AsmValue where
  | num (v : Int)
  | label (name : List Char) (k : Nat)
  | neg (v : AsmValue)
  deriving DecidableEq, Repr

/-- An operand: a number in a mode (R320). -/
structure AsmOperand where
  mode : Mode
  value : AsmValue
  deriving DecidableEq, Repr

/-- A statement (R321, R323, R324). -/
inductive AsmStmt where
  | instr (op : Opcode) (ps : List AsmOperand)
  | jmp (t : AsmOperand)
  | mov (p d : AsmOperand)
  | nop
  | word (vs : List Int)
  deriving DecidableEq, Repr

/-- A line: an optional label, an optional statement (R323). -/
structure AsmLine where
  label : Option (List Char)
  stmt : Option AsmStmt
  deriving DecidableEq, Repr

/-- How many words a statement emits (R322 to R324). -/
def AsmStmt.length : AsmStmt → Nat
  | .instr op _ => 1 + op.arity
  | .jmp _ => pseudoNop.length
  | .mov _ _ => 1 + Opcode.add.arity
  | .nop => pseudoNop.length
  | .word vs => vs.length

/-- The labels of a program with their addresses, the first line standing at address `a` (R323). -/
def asmLabels : Nat → List AsmLine → List (List Char × Nat)
  | _, [] => []
  | a, l :: ls =>
    let rest := asmLabels (match l.stmt with | some t => a + t.length | none => a) ls
    match l.label with
    | some n => (n, a) :: rest
    | none => rest

/-- The number a value stands for, if its label is defined (R323). -/
def AsmValue.eval (labels : List (List Char × Nat)) : AsmValue → Option Int
  | .num v => some v
  | .label n k => (labels.lookup n).map fun a : Nat => (a : Int) + k
  | .neg v => (v.eval labels).map fun x => -x

/-- A number as a word, if it is one. -/
def wordOf? (v : Int) : Option Word := if InWord v then some (Word.ofInt v) else none

/-- The parameter an operand stands for (R320). -/
def AsmOperand.param? (labels : List (List Char × Nat)) (p : AsmOperand) : Option Param := do
  let v ← p.value.eval labels
  let w ← wordOf? v
  return p.mode.param w

/-- The instruction with a given opcode and parameters, if there are as many as its arity (R321). -/
def instrOfParams? : Opcode → List Param → Option Instr
  | .add, [a, b, d] => some (.add a b d)
  | .mul, [a, b, d] => some (.mul a b d)
  | .inp, [d] => some (.inp d)
  | .out, [p] => some (.out p)
  | .jt, [c, t] => some (.jt c t)
  | .jf, [c, t] => some (.jf c t)
  | .lt, [a, b, d] => some (.lt a b d)
  | .eq, [a, b, d] => some (.eq a b d)
  | .arb, [p] => some (.arb p)
  | .hlt, [] => some .hlt
  | _, _ => none

/-- The words a statement emits (R322 to R324). -/
def AsmStmt.emit (labels : List (List Char × Nat)) : AsmStmt → Option (List Word)
  | .instr op ps => do
    let qs ← ps.mapM (AsmOperand.param? labels)
    let i ← instrOfParams? op qs
    return encode i
  | .jmp t => do return encode (pseudoJmp (← t.param? labels))
  | .mov p d => do return encode (pseudoMov (← p.param? labels) (← d.param? labels))
  | .nop => some (encode pseudoNop)
  | .word vs => vs.mapM wordOf?

/-- The words of a program of lines, if every operand has a value, every number is a word and no label is defined twice
(R322, R323, log 14). -/
def assembleLines (ls : List AsmLine) : Option (List Word) :=
  let labels := asmLabels 0 ls
  if (labels.map Prod.fst).Nodup then
    (ls.filterMap AsmLine.stmt).foldr (fun t rest => do return (← t.emit labels) ++ (← rest)) (some [])
  else none

/-! The text (R320 to R323). -/

/-- A character of a name: a letter, a digit or an underscore (log 14). -/
def nameChar (c : Char) : Bool := c.isAlphanum || c == '_'

/-- A name: name characters, the first no digit (log 14). -/
def nameText? : List Char → Option (List Char)
  | [] => none
  | c :: cs => if nameChar c && !c.isDigit && cs.all nameChar then some (c :: cs) else none

/-- A number in an operand (R320, R323). DESIGN CHOICE (log 14): the `k` of `name+k` is decimal digits without a
sign, and white space may stand around the `+`. -/
def valueText? (cs : List Char) : Option AsmValue :=
  match intText? cs with
  | some v => some (.num v)
  | none =>
    match splitText '+' cs with
    | [n] => (nameText? (trimText n)).map fun m => .label m 0
    | [n, k] => do return .label (← nameText? (trimText n)) (← natText? (trimText k))
    | _ => none

/-- What stands between the brackets of an operand: `rb+r`, `rb-r` or an address (R320). DESIGN CHOICE (log 14): white space may
follow the sign, and `rb` is not reserved, so that `rb` alone is the address of a label of that name. -/
def bracketText? (cs : List Char) : Option AsmOperand :=
  match cs with
  | 'r' :: 'b' :: '+' :: r => (valueText? (trimText r)).map fun v => ⟨.relative, v⟩
  | 'r' :: 'b' :: '-' :: r => (valueText? (trimText r)).map fun v => ⟨.relative, .neg v⟩
  | a => (valueText? (trimText a)).map fun v => ⟨.position, v⟩

/-- An operand (R320). DESIGN CHOICE (log 14): white space may follow `#` and stand just inside the brackets. -/
def operandText? (cs : List Char) : Option AsmOperand :=
  match cs with
  | '#' :: v => (valueText? (trimText v)).map fun w => ⟨.immediate, w⟩
  | '[' :: r =>
    match r.reverse with
    | ']' :: m => bracketText? (trimText m.reverse)
    | _ => none
  | _ => none

/-- The mnemonics of the ten instructions (R321). -/
def mnemonics : List (List Char × Opcode) :=
  [(['A', 'D', 'D'], .add), (['M', 'U', 'L'], .mul), (['I', 'N'], .inp), (['O', 'U', 'T'], .out), (['J', 'T'], .jt),
   (['J', 'F'], .jf), (['L', 'T'], .lt), (['E', 'Q'], .eq), (['A', 'R', 'B'], .arb), (['H', 'L', 'T'], .hlt)]

/-- The comma-separated items after a mnemonic. -/
def itemsText (cs : List Char) : List (List Char) := if cs.isEmpty then [] else (splitText ',' cs).map trimText

/-- A statement from its mnemonic and its items (R321, R323, R324). DESIGN CHOICE (log 14): `.word` may have no values, and its
values are integers, not labels. -/
def stmtText? (m : List Char) (items : List (List Char)) : Option AsmStmt :=
  if m = ['.', 'w', 'o', 'r', 'd'] then (items.mapM intText?).map .word
  else do
    let ps ← items.mapM operandText?
    if m = ['J', 'M', 'P'] then
      match ps with
      | [t] => some (.jmp t)
      | _ => none
    else if m = ['M', 'O', 'V'] then
      match ps with
      | [p, d] => some (.mov p d)
      | _ => none
    else if m = ['N', 'O', 'P'] then
      match ps with
      | [] => some .nop
      | _ => none
    else (mnemonics.lookup m).map fun op => .instr op ps

/-- What stands on a line after its label: nothing, or one statement. -/
def bodyText? (cs : List Char) : Option (Option AsmStmt) :=
  if cs.isEmpty then some none
  else
    let m := cs.takeWhile fun c => !c.isWhitespace
    (stmtText? m (itemsText (trimText (cs.drop m.length)))).map some

/-- A line of text (R321, R323): a comment runs from `;` to the end. -/
def lineText? (cs : List Char) : Option AsmLine :=
  let code := trimText (cs.takeWhile fun c => c != ';')
  match splitText ':' code with
  | [b] => (bodyText? b).map fun t => ⟨none, t⟩
  | [n, b] => do return ⟨some (← nameText? n), ← bodyText? (trimText b)⟩
  | _ => none

/-- The words of an assembly text, if it is one (R320 to R324). -/
def assembleText (cs : List Char) : Option (List Word) := do
  let ls ← (splitText '\n' cs).mapM lineText?
  assembleLines ls

end Sys2Proof.Machine
end

