-- ==== Sys2Proof/Safety.lean ====
section
/-! DEFINITION. How a run ends, what the host observes, and the invariants, in the terms the claims use (spec/44_halt.md R481,
spec/10_state.md R112, spec/41_io.md R426, spec/60_exceptions.md R607, R650). -/

namespace Sys2Proof.Machine

/-- What the host observes of a run that ended normally (R481). -/
structure Observation where
  /-- The final memory image. -/
  image : Memory
  /-- The port steps the run made. -/
  ports : List PortEvent
  deriving DecidableEq, Repr

/-- What the host observes: something exactly when the run ended normally (R481). -/
def State.observe (s : State) : Option Observation :=
  match s.phase with
  | .halted => some ⟨s.mem, s.trace⟩
  | .ready => none
  | .offerOut _ => none
  | .offerReq _ => none
  | .awaitIn _ => none
  | .offerShutdown => none
  | .faulted _ => none

/-- A waiting phase (R122, R646). -/
def Phase.waiting : Phase → Bool
  | .ready => false
  | .offerOut _ => true
  | .offerReq _ => true
  | .awaitIn _ => true
  | .offerShutdown => true
  | .halted => false
  | .faulted _ => false

/-- The phase of an abnormal end (R481). -/
def Phase.isFault : Phase → Bool
  | .ready => false
  | .offerOut _ => false
  | .offerReq _ => false
  | .awaitIn _ => false
  | .offerShutdown => false
  | .halted => false
  | .faulted _ => true

/-- The four arithmetic and comparison instructions (R400), each with its result function. -/
def aluTable : List ((Param → Param → Param → Instr) × (Word → Word → Except FaultDetail Word)) :=
  [(Instr.add, fAdd), (Instr.mul, fMul), (Instr.lt, fLt), (Instr.eq, fEq)]

/-- The instruction `i` stands in memory at `ip`: every word of its encoding, at an address that exists. -/
def State.holdsAtIp (s : State) (i : Instr) : Prop :=
  ∀ (k : Nat) (w : Word), (encode i)[k]? = some w → s.inBounds (s.ip.toInt + k) ∧ s.mem.read (s.ip.toInt + k).toNat = w

/-- One item of a program text (R702): a sign and the decimal digits, most significant first. -/
structure TextItem where
  negative : Bool
  digits : List (Fin 10)
  deriving DecidableEq, Repr

/-- The characters of an item. -/
def TextItem.chars (t : TextItem) : List Char :=
  (if t.negative then ['-'] else []) ++ t.digits.map fun d => Char.ofNat (48 + d.val)

/-- The integer an item stands for. -/
def TextItem.value (t : TextItem) : Int :=
  let n : Nat := t.digits.foldl (fun acc d => acc * 10 + d.val) 0
  if t.negative then -(n : Int) else n

/-- The characters of a program text: its items with commas between them (R702). -/
def itemsChars : List TextItem → List Char
  | [] => []
  | [t] => t.chars
  | t :: u :: ts => t.chars ++ ',' :: itemsChars (u :: ts)

/-- An integer without its sign. -/
def TextItem.magnitude (t : TextItem) : TextItem := { t with negative := false }

/-- The mnemonic of each opcode (spec/30_encoding.md R321). -/
def mnemonicChars : Opcode → List Char
  | .add => ['A', 'D', 'D']
  | .mul => ['M', 'U', 'L']
  | .inp => ['I', 'N']
  | .out => ['O', 'U', 'T']
  | .jt => ['J', 'T']
  | .jf => ['J', 'F']
  | .lt => ['L', 'T']
  | .eq => ['E', 'Q']
  | .arb => ['A', 'R', 'B']
  | .hlt => ['H', 'L', 'T']

/-- The characters of an operand in each mode, its number written as `t` (R320): `[a]`, `#v`, `[rb+r]` or `[rb-r]`. -/
def operandChars (m : Mode) (t : TextItem) : List Char :=
  match m with
  | .position => ['['] ++ t.chars ++ [']']
  | .immediate => ['#'] ++ t.chars
  | .relative => ['[', 'r', 'b', if t.negative then '-' else '+'] ++ t.magnitude.chars ++ [']']

/-- A statement of a program as one writes it: an instruction (R321) or a pseudo-instruction (R324). -/
inductive SourceStmt where
  | instr (i : Instr)
  | jmp (t : Param)
  | mov (p d : Param)
  | nop
  deriving DecidableEq, Repr

/-- The mnemonic a statement starts with (R321, R324). -/
def SourceStmt.mnemonic : SourceStmt → List Char
  | .instr i => mnemonicChars i.opcode
  | .jmp _ => ['J', 'M', 'P']
  | .mov _ _ => ['M', 'O', 'V']
  | .nop => ['N', 'O', 'P']

/-- The operands of a statement, in order. -/
def SourceStmt.params : SourceStmt → List Param
  | .instr i => i.params
  | .jmp t => [t]
  | .mov p d => [p, d]
  | .nop => []

/-- The instruction a statement stands for (R324). -/
def SourceStmt.expand : SourceStmt → Instr
  | .instr i => i
  | .jmp t => pseudoJmp t
  | .mov p d => pseudoMov p d
  | .nop => pseudoNop

/-- Pieces of text with a separator between them. -/
def joinChars (sep : List Char) : List (List Char) → List Char
  | [] => []
  | [g] => g
  | g :: h :: gs => g ++ sep ++ joinChars sep (h :: gs)

/-- A statement as text (R321): the mnemonic, then, if there are any, the operands with commas between them, the numbers of the
operands written as `ts`. -/
def SourceStmt.chars (a : SourceStmt) (ts : List TextItem) : List Char :=
  a.mnemonic ++
    match a.params.zip ts with
    | [] => []
    | p :: ps => [' '] ++ joinChars [',', ' '] ((p :: ps).map fun q => operandChars q.1.mode q.2)

/-- `ts` write the numbers of a statement's operands. -/
def SourceStmt.writtenBy (a : SourceStmt) (ts : List TextItem) : Prop :=
  ts.map TextItem.value = a.params.map (fun p => p.word.toInt) ∧ ∀ t ∈ ts, t.digits ≠ []

/-- A stuck core (R122, R650): in a waiting phase, and the environment gives no matching event. -/
abbrev State.stuck (s : State) : Prop := step s = .refused .environmentSilent

/-- `k` steps of the machine, stopping at the first that has no next state. -/
def steps (k : Nat) (s : State) : Host.Outcome State Fault Refusal := Host.Core.run Sys2Proof.core k s

/-- `Reaches s t`: some number of steps leads from `s` to `t`. -/
inductive Reaches (s : State) : State → Prop where
  | start : Reaches s s
  | next {t u : State} (h : Reaches s t) (hu : step t = .next u) : Reaches s u

/-- A safe run: no state it reaches is faulted. -/
def State.Safe (s : State) : Prop := ∀ t, Reaches s t → t.phase.isFault = false

/-- The memory invariant: canonical form, and every listed address exists (R200, R207). -/
def State.MemoryInv (s : State) : Prop := s.mem.wf ∧ ∀ c ∈ s.mem, c.1 < s.config.arenaSize

/-- What phase and memory say of each other (R112, R607): the latched instruction is the one at `ip`, a latched value is the
value of its source, and a fault record names the instruction at `ip`. -/
def State.LatchInv (s : State) : Prop :=
  match s.phase with
  | .ready => True
  | .offerOut v => ∃ p, fetch s = .ok (.out p) ∧ resolveSrc p s = .ok v
  | .offerReq d => fetch s = .ok (.inp d)
  | .awaitIn d => fetch s = .ok (.inp d)
  | .offerShutdown => fetch s = .ok .hlt
  | .halted => fetch s = .ok .hlt
  | .faulted f => f.ip = s.ip ∧ f.word = s.fetchedWord

/-- Where a port trace stands in the protocol of R426. -/
inductive PortStand where
  /-- No request is open. -/
  | idle
  /-- A `RequestInput` was sent and not yet answered. -/
  | asked
  /-- The answer was no `Data`: nothing may follow. -/
  | failed
  /-- `Shutdown` was sent: nothing may follow. -/
  | ended
  /-- The protocol was broken. -/
  | broken
  deriving DecidableEq, Repr

/-- One port step of the protocol of R426. -/
def PortStand.after : PortStand → PortEvent → PortStand
  | .idle, .send (.data _) => .idle
  | .idle, .send .requestInput => .asked
  | .idle, .send .shutdown => .ended
  | .idle, .recv _ => .broken
  | .asked, .recv (.message (.data _)) => .idle
  | .asked, .recv (.message .requestInput) => .failed
  | .asked, .recv (.message .shutdown) => .failed
  | .asked, .recv .closed => .failed
  | .asked, .send _ => .broken
  | .failed, _ => .broken
  | .ended, _ => .broken
  | .broken, _ => .broken

/-- Where a trace, oldest step first, stands in the protocol. -/
def portStand (tr : List PortEvent) : PortStand := tr.foldl PortStand.after .idle

/-- The protocol invariant (R426): the phase says where the trace stands, and the trace never broke the protocol. -/
def State.ProtocolInv (s : State) : Prop :=
  match s.phase with
  | .ready => portStand s.trace = .idle
  | .offerOut _ => portStand s.trace = .idle
  | .offerReq _ => portStand s.trace = .idle
  | .awaitIn _ => portStand s.trace = .asked
  | .offerShutdown => portStand s.trace = .idle
  | .halted => portStand s.trace = .ended
  | .faulted _ => portStand s.trace = .idle ∨ portStand s.trace = .failed

end Sys2Proof.Machine
end

