-- ==== Sys2Proof/Certificates/Slice0/Obligations.lean ====
section
/-! DEFINITION. The statements for the provers. Each docstring names the rule it formalises; where a statement rests on a
decision of the spec (spec/92_eei_decisions.md) or on a choice of the model, it says so. -/

open Sys2Proof Sys2Proof.Machine

/-! Reset and loading. -/

/-- R700: after reset `mem` holds the program at addresses 0.. and zero elsewhere, `ip = 0`, `rb = 0`, `phase = Ready`.
`State.reset` is the reset of the standard machine with nothing loaded. -/
def Obligations.ResetHoldsProgramThenZeros : Prop :=
  (∀ (cfg : Config) (prog : List Word) (k : Nat) (as : List Answer),
    (∀ a, (State.start cfg prog k as).mem.read a = (prog[a]?).getD 0) ∧
    (State.start cfg prog k as).ip = 0 ∧ (State.start cfg prog k as).rb = 0 ∧
    (State.start cfg prog k as).phase = .ready) ∧
  State.reset.mem = (State.start Config.standard [] 0 []).mem ∧ State.reset.ip = 0 ∧ State.reset.rb = 0 ∧
    State.reset.phase = .ready

/-- R701: the first step after reset runs the instruction whose words the program starts with. The model's own here: the
environment fields (log 4) and `State.start` as the reset of a loaded program (log 10). -/
def Obligations.FirstStepRunsAddressZero : Prop :=
  ∀ (cfg : Config) (prog rest : List Word) (i : Instr) (k : Nat) (as : List Answer),
    prog.length ≤ cfg.arenaSize → decode prog = .ok (i, rest) →
    step (State.start cfg prog k as) = exec i (State.start cfg prog k as)

/-- R702, R703 item 1 (decision D19; white space is log 13): a text reads as the integers `vs` exactly when it is one or more
items with commas between them and white space around the whole, each item an optional `-` and one or more digits, and `vs` are
their values. Every other text is refused: an empty one, an empty item, a `+`, a lone `-`, white space within. -/
def Obligations.ProgramTextReadsItsIntegers : Prop :=
  ∀ (cs : List Char) (vs : List Int), programText? cs = some vs ↔
    ∃ (pre post : List Char) (items : List TextItem), cs = pre ++ itemsChars items ++ post ∧
      (∀ c ∈ pre, c.isWhitespace = true) ∧ (∀ c ∈ post, c.isWhitespace = true) ∧
      items ≠ [] ∧ (∀ t ∈ items, t.digits ≠ []) ∧ vs = items.map TextItem.value

/-- R703 (decision D19): exactly the texts of integers in the word range, no more of them than words of memory, are loaded, each
integer as the word with its value. -/
def Obligations.LoadAcceptsExactlyFittingPrograms : Prop :=
  ∀ (cfg : Config) (cs : List Char) (ws : List Word),
    loadText cfg cs = .ok ws ↔
      ∃ vs, programText? cs = some vs ∧ (∀ v ∈ vs, InWord v) ∧ vs.length ≤ cfg.arenaSize ∧ ws.map BitVec.toInt = vs

/-! Encoding and decoding. -/

/-- Decoding the words of any instruction, with any operands, gives it back and leaves the words after it. -/
def Obligations.DecodeInvertsEncode : Prop :=
  ∀ (i : Instr) (rest : List Word), decode (encode i ++ rest) = .ok (i, rest)

/-- No two lists of words decode to one instruction: what was decoded is exactly the instruction's encoding. -/
def Obligations.EncodeInvertsDecode : Prop :=
  ∀ (ws rest : List Word) (i : Instr), decode ws = .ok (i, rest) → ws = encode i ++ rest

/-- R302, R303: the opcode and the modes of a non-negative instruction word are its decimal digits, an absent digit being 0, with
R303's example. That words with other digits above the modes are rejected is D6 and is not stated here. -/
def Obligations.InstructionWordDigits : Prop :=
  (∀ (w : Word) (h : Head), 0 ≤ w.toInt → w.toNat / 10 ^ (h.opcode.arity + 2) = 0 →
    (decodeHead w = .ok h ↔ w.toNat % 100 = h.opcode.code ∧
      ∀ k, 1 ≤ k → k ≤ h.opcode.arity → (h.modes[k - 1]?).map Mode.toDigit = some (digit w.toNat (k + 1)))) ∧
  (∀ h : Head, h.encode.toNat = (h.modeDigit 1 + 10 * h.modeDigit 2 + 100 * h.modeDigit 3) * 100 + h.opcode.code) ∧
  (Mode.toDigit .position = 0 ∧ Mode.toDigit .immediate = 1 ∧ Mode.toDigit .relative = 2) ∧
  decode [1002, 4, 3, 4, 33] = .ok (.mul (.pos 4) (.imm 3) (.pos 4), [33])

/-- R308: a non-negative word whose two low digits are no opcode faults as MalformedInstruction, and nothing changes but the
phase; with R308's examples. The record's format is D14, and that nothing else changes is D13. That the opcode is looked at
before the modes, the excess digits and the operand words is the check order D7 (log 19), and 1099's excess digits are D6. The
model's own here: a fault as a next state (log 8) and where a record's word comes from (log 9). -/
def Obligations.IllegalOpcodeFaults : Prop :=
  (∀ (s : State) (w : Word), s.phase = .ready → s.inBounds s.ip.toInt → s.mem.read s.ip.toInt.toNat = w → 0 ≤ w.toInt →
    (w.toNat % 100 = 0 ∨ (10 ≤ w.toNat % 100 ∧ w.toNat % 100 ≤ 98)) →
    step s = .next { s with
      phase := .faulted ⟨s.ip, some w, .malformedInstruction (.badOpcode (w.toNat % 100))⟩ }) ∧
  (∀ (m : Malformed), (FaultDetail.malformedInstruction m).code = 1) ∧
  decodeHead 0 = .error (.badOpcode 0) ∧ decodeHead 10 = .error (.badOpcode 10) ∧ decodeHead 98 = .error (.badOpcode 98) ∧
  decodeHead 100 = .error (.badOpcode 0) ∧ decodeHead 250 = .error (.badOpcode 50) ∧ decodeHead 1099 = .error .excessDigits

/-- R309: a mode digit of 3 to 9 faults as MalformedInstruction for the first parameter that has one; with R309's example. The
record's format is D14, and that nothing else changes is D13. That the mode digit is reported also where an excess digit, a
later illegal mode digit or an operand word past the top of memory applies is the check order D7 (R307, R610, log 19). The
model's own here: a fault as a next state (log 8) and where a record's word comes from (log 9). -/
def Obligations.IllegalModeDigitFaults : Prop :=
  (∀ (s : State) (w : Word) (op : Opcode) (k : Nat), s.phase = .ready → s.inBounds s.ip.toInt →
    s.mem.read s.ip.toInt.toNat = w → 0 ≤ w.toInt → w.toNat % 100 = op.code → 1 ≤ k → k ≤ op.arity →
    3 ≤ digit w.toNat (k + 1) → (∀ j, 1 ≤ j → j < k → digit w.toNat (j + 1) < 3) →
    step s = .next { s with
      phase := .faulted ⟨s.ip, some w, .malformedInstruction (.badMode k (digit w.toNat (k + 1)))⟩ }) ∧
  decodeHead 301 = .error (.badMode 1 3)

/-- R310, R311 (decisions D5, D6): a negative word, and a word that is otherwise legal but has a digit above its last mode
digit, fault as MalformedInstruction (R601). The record's `ip` and `word` are D14, that nothing else changes is R611 and D13
(log 8), and that the digits are looked at before the operand words are fetched, as at the top of memory, is D7 (log 19). The
model's own here: where a record's word comes from (log 9). -/
def Obligations.NegativeAndExcessWordsFault : Prop :=
  ∀ (s : State) (w : Word), s.phase = .ready → s.inBounds s.ip.toInt → s.mem.read s.ip.toInt.toNat = w →
    (w.toInt < 0 → step s = .next { s with phase := .faulted ⟨s.ip, some w, .malformedInstruction .negativeWord⟩ }) ∧
    (∀ op : Opcode, 0 ≤ w.toInt → w.toNat % 100 = op.code →
      (∀ k, 1 ≤ k → k ≤ op.arity → digit w.toNat (k + 1) < 3) → w.toNat / 10 ^ (op.arity + 2) ≠ 0 →
      step s = .next { s with phase := .faulted ⟨s.ip, some w, .malformedInstruction .excessDigits⟩ })

/-- R306, R312: exactly the 136 words of the table are instruction words, 37 of them with an Immediate destination. -/
def Obligations.ExactlyTheLegalWordsDecode : Prop :=
  (∀ w : Word, (∃ h, decodeHead w = .ok h) ↔ w ∈ legalHeads.map Head.encode) ∧
  (legalHeads.map Head.encode).Nodup ∧ legalHeads.length = 136 ∧ (legalHeads.filter Head.dagger).length = 37

/-- Instruction words written out from the table's patterns, one of each row of R306, decode to the instruction they stand for. -/
def Obligations.WrittenOutWordsDecode : Prop :=
  decode [21101, 4, 5, 7] = .ok (.add (.imm 4) (.imm 5) (.rel 7), []) ∧
  decode [1202, 6, 8, 2] = .ok (.mul (.rel 6) (.imm 8) (.pos 2), []) ∧
  decode [203, 9] = .ok (.inp (.rel 9), []) ∧
  decode [104, 7] = .ok (.out (.imm 7), []) ∧
  decode [2105, 1, 3] = .ok (.jt (.imm 1) (.rel 3), []) ∧
  decode [1206, 2, 9] = .ok (.jf (.rel 2) (.imm 9), []) ∧
  decode [20107, 3, 5, 6] = .ok (.lt (.imm 3) (.pos 5) (.rel 6), []) ∧
  decode [2108, 8, 4, 1] = .ok (.eq (.imm 8) (.rel 4) (.pos 1), []) ∧
  decode [109, 5] = .ok (.arb (.imm 5), []) ∧
  decode [99] = .ok (.hlt, [])

/-! The step. -/

/-- In `Ready`, when the words at `ip` are an instruction's, the step is that instruction's `exec` in that state: nothing is
added around it (R121, R307). -/
def Obligations.StepRunsTheInstructionAtIp : Prop :=
  ∀ (s : State) (i : Instr), s.phase = .ready → s.holdsAtIp i → step s = exec i s

/-- R121: a step from `Ready` always exists, touches no port, and ends the instruction in that step, but that IN, OUT and HLT
end it in their waiting phase; a fault ends it too. That a faulting step has a next state is the model's reading of R15 and D13
(log 8), and that no port is touched is said of the model's fields for the environment (log 4) and the trace (log 5). The
model's own here: where a record's word comes from (log 9). -/
def Obligations.ReadyStepShape : Prop :=
  ∀ s : State, s.phase = .ready →
    ∃ t, step s = .next t ∧ t.trace = s.trace ∧ t.accepts = s.accepts ∧ t.answers = s.answers ∧
      (step s = match fetch s with | .ok i => exec i s | .error d => .next (s.raise d)) ∧
      (t.phase.isFault = true ∨ ∃ i, fetch s = .ok i ∧
        match i with
        | .inp d => t.phase = .offerReq d
        | .out p => ∃ v, resolveSrc p s = .ok v ∧ t.phase = .offerOut v
        | .hlt => t.phase = .offerShutdown
        | .add _ _ _ | .mul _ _ _ | .jt _ _ | .jf _ _ | .lt _ _ _ | .eq _ _ _ | .arb _ => t.phase = .ready)

/-- R122: in a waiting phase there is no `τ` step; the core moves only when the environment gives the matching event, and that
event is the step; until then it holds, which is no end of the run. The waiting phases are D24, an offer that is never accepted
D12 and the answer Closed D11. The model's own here: the environment fields (log 4), the trace (log 5) and a stuck core as a
refusal (log 6). -/
def Obligations.WaitingMovesOnlyOnItsEvent : Prop :=
  ∀ s : State, s.phase.waiting = true →
    labelledStep .tau s = none ∧
    (∀ m, (labelledStep (.port (.send m)) s).isSome = true ↔ s.phase.offer? = some m) ∧
    (∀ a, (labelledStep (.port (.recv a)) s).isSome = true ↔ ∃ d, s.phase = .awaitIn d) ∧
    (s.stuck ↔ (s.phase.offer?.isSome = true ∧ s.accepts = 0) ∨ ((∃ d, s.phase = .awaitIn d) ∧ s.answers = [])) ∧
    (¬ s.stuck → ∃ t e, step s = .next t ∧ t.trace = s.trace ++ [e] ∧
      ((∃ m, e = .send m ∧ s.phase.offer? = some m) ∨ ∃ a, e = .recv a ∧ s.answers.head? = some a))

/-- R123 (decision D15): `Halted` and `Faulted(f)` have no step of any kind, whatever the environment offers. The model's own
here: the environment fields (log 4) and a stuck core as a refusal (log 6). -/
def Obligations.EndedCoreHasNoStep : Prop :=
  ∀ (s : State), (s.phase = .halted ∨ ∃ f, s.phase = .faulted f) →
    (∀ l, labelledStep l s = none) ∧ (∀ k as t, step { s with accepts := k, answers := as } ≠ .next t) ∧ ¬ s.stuck

/-- R120, R124: every step of the machine is one labelled step of the spec's relation, taken with the environment's event that
carries that label; the trace records it. The labelled steps are D24. The model's own here: the environment fields (log 4) and
the trace (log 5). -/
def Obligations.StepIsOneLabelledStep : Prop :=
  ∀ s t : State, step s = .next t →
    ∃ l u, labelledStep l s = some u ∧ t = { u with accepts := t.accepts, answers := t.answers } ∧
      match l with
      | .tau => t.trace = s.trace ∧ t.accepts = s.accepts ∧ t.answers = s.answers
      | .port (.send m) => t.trace = s.trace ++ [.send m] ∧ s.accepts = t.accepts + 1 ∧ t.answers = s.answers
      | .port (.recv a) => t.trace = s.trace ++ [.recv a] ∧ t.accepts = s.accepts ∧ s.answers = a :: t.answers

/-- R120 to R122, the other direction: every labelled step of the spec's relation is a step of the machine in an environment
that gives that event. The labelled steps are D24, and the environment fields are the model's (log 4). -/
def Obligations.LabelledStepIsAStep : Prop :=
  ∀ (s u : State) (l : Label), labelledStep l s = some u →
    ∃ k as, step { s with accepts := k, answers := as } = .next u

/-- R124, R721: a core has a next step exactly when it is `Ready`, or the environment gives the event it waits for; a core that
has not ended and gets the event it waits for is never without a step. The holds are D11 and D12, the ends D15, and how they are
shown is the model's choice (logs 4, 6, 7). -/
def Obligations.StepExistsUnlessEndedOrSilent : Prop :=
  ∀ s : State,
    ((∃ t, step s = .next t) ↔ s.phase = .ready ∨ (s.phase.offer?.isSome = true ∧ 0 < s.accepts) ∨
      ((∃ d, s.phase = .awaitIn d) ∧ s.answers ≠ [])) ∧
    ((∃ t, step s = .next t) ∨ s.stuck ∨ s.phase = .halted ∨ ∃ f, s.phase = .faulted f)

/-- R620, R621 (decision D20): nothing outside reaches a core that is `Ready`: what the environment would do, and the trace so
far, change nothing that the step does. The environment fields and the trace are the model's (logs 4, 5). -/
def Obligations.ReadyStepIgnoresEnvironment : Prop :=
  ∀ (s t : State) (k : Nat) (as : List Answer) (tr : List PortEvent), s.phase = .ready → step s = .next t →
    step { s with accepts := k, answers := as, trace := tr } = .next { t with accepts := k, answers := as, trace := tr }

/-! Operands and bounds. -/

/-- R223: source resolution in the three modes, in bounds and out. -/
def Obligations.SourceResolution : Prop :=
  ∀ (s : State) (a v r : Word),
    (s.inBounds a.toInt → resolveSrc (.pos a) s = .ok (s.mem.read a.toInt.toNat)) ∧
    (¬ s.inBounds a.toInt → resolveSrc (.pos a) s = .error (.outOfBoundsAccess a.toInt .read)) ∧
    resolveSrc (.imm v) s = .ok v ∧
    (s.inBounds (s.rb.toInt + r.toInt) → resolveSrc (.rel r) s = .ok (s.mem.read (s.rb.toInt + r.toInt).toNat)) ∧
    (¬ s.inBounds (s.rb.toInt + r.toInt) →
      resolveSrc (.rel r) s = .error (.outOfBoundsAccess (s.rb.toInt + r.toInt) .read))

/-- R207: an access outside `0 .. ARENA_SIZE − 1` raises OutOfBoundsAccess and touches no memory, for an instruction-word fetch,
an operand-word fetch, a source read and a destination write. A source read records the exact address of a source that is out of
bounds: which one, where two are, is left open (D7). Where other faults may apply too (a second source, an overflow), the
destination clauses suppose they do not (D7). That a jump's target is resolved, and so faults, also when the jump is not taken
is D8; that IN's destination is checked after the receive and an Immediate destination only at the write is D9; the lowest
operand word out of bounds, and a source before the write, are reported by the order D7 (R610, log 19). That IN's answer stays
consumed is R611. The model's own here: the environment fields (log 4), the trace (log 5), a fault as a next state (log 8) and
where a record's word comes from (log 9). -/
def Obligations.OutOfBoundsAccessesFault : Prop :=
  (∀ s : State, s.phase = .ready → ¬ s.inBounds s.ip.toInt →
    step s = .next { s with phase := .faulted ⟨s.ip, none, .outOfBoundsAccess s.ip.toInt .fetch⟩ }) ∧
  (∀ (s : State) (w : Word) (h : Head) (k : Nat), s.phase = .ready → s.inBounds s.ip.toInt →
    s.mem.read s.ip.toInt.toNat = w → decodeHead w = .ok h → 1 ≤ k → k ≤ h.opcode.arity →
    (∀ j, 1 ≤ j → j < k → s.inBounds (s.ip.toInt + j)) → ¬ s.inBounds (s.ip.toInt + k) →
    step s = .next { s with phase := .faulted ⟨s.ip, some w, .outOfBoundsAccess (s.ip.toInt + k) .operand⟩ }) ∧
  (∀ (s : State) (i : Instr) (p : Param) (c : Int), p ∈ i.sources → effAddr s.rb p = some c → ¬ s.inBounds c →
    ∃ q ∈ i.sources, ∃ a, effAddr s.rb q = some a ∧ ¬ s.inBounds a ∧
      exec i s = .next { s with phase := .faulted ⟨s.ip, s.fetchedWord, .outOfBoundsAccess a .read⟩ }) ∧
  (∀ (s : State) (a b d : Param) (x y r : Word) (c : Int), ∀ e ∈ aluTable, resolveSrc a s = .ok x → resolveSrc b s = .ok y →
    e.2 x y = .ok r → effAddr s.rb d = some c → ¬ s.inBounds c →
    exec (e.1 a b d) s = .next { s with phase := .faulted ⟨s.ip, s.fetchedWord, .outOfBoundsAccess c .write⟩ }) ∧
  (∀ (s : State) (d : Param) (v : Word) (as : List Answer) (c : Int), s.phase = .awaitIn d →
    s.answers = .message (.data v) :: as → effAddr s.rb d = some c → ¬ s.inBounds c →
    step s = .next { s with answers := as, trace := s.trace ++ [.recv (.message (.data v))],
                            phase := .faulted ⟨s.ip, s.fetchedWord, .outOfBoundsAccess c .write⟩ }) ∧
  (∀ a k, (FaultDetail.outOfBoundsAccess a k).code = 2)

/-- R603: an Immediate destination raises InvalidWriteTarget when ADD, MUL, LT, EQ or IN comes to write, recording `ip`, the
word and the parameter index, 3 or for IN 1; those are 37 words. The record's format is D14, that nothing else changes, but that
IN's answer stays consumed, is R611 and D13, and that the check comes at the write is D9 (log 19). The model's own here: the
environment fields (log 4), the trace (log 5), a fault as a next state (log 8) and where a record's word comes from (log 9). -/
def Obligations.ImmediateDestinationFaults : Prop :=
  (∀ (s : State) (a b : Param) (v x y r : Word), ∀ e ∈ aluTable, resolveSrc a s = .ok x → resolveSrc b s = .ok y →
    e.2 x y = .ok r →
    exec (e.1 a b (.imm v)) s = .next { s with phase := .faulted ⟨s.ip, s.fetchedWord, .invalidWriteTarget 3⟩ }) ∧
  (∀ (s : State) (v w : Word) (as : List Answer), s.phase = .awaitIn (.imm v) → s.answers = .message (.data w) :: as →
    step s = .next { s with answers := as, trace := s.trace ++ [.recv (.message (.data w))],
                            phase := .faulted ⟨s.ip, s.fetchedWord, .invalidWriteTarget 1⟩ }) ∧
  (∀ k, (FaultDetail.invalidWriteTarget k).code = 3) ∧
  (legalHeads.filter Head.dagger).length = 37

/-- R105: ARB is the only writer of `rb`, to which it adds its operand, whatever word the sum is; Relative operands are the only
readers, and only their effective address is bounds-checked; `rb` is 0 after reset. -/
def Obligations.RelativeBaseWritersAndReaders : Prop :=
  (∀ s t : State, step s = .next t → t.rb = s.rb ∨
    ∃ p v, s.phase = .ready ∧ fetch s = .ok (.arb p) ∧ resolveSrc p s = .ok v ∧ t.rb.toInt = s.rb.toInt + v.toInt) ∧
  (∀ (s : State) (p : Param) (v : Word), resolveSrc p s = .ok v → InWord (s.rb.toInt + v.toInt) →
    ∃ t, exec (.arb p) s = .next t ∧ t.rb.toInt = s.rb.toInt + v.toInt ∧ t.phase = s.phase) ∧
  (∀ (s : State) (r : Word), s.inBounds (s.rb.toInt + r.toInt) →
    resolveSrc (.rel r) s = .ok (s.mem.read (s.rb.toInt + r.toInt).toNat)) ∧
  (∀ (s t : State) (i : Instr) (r : Word), i.opcode ≠ .arb → (∀ p ∈ i.params, p.mode ≠ .relative) → exec i s = .next t →
    exec i { s with rb := r } = .next { t with rb := r }) ∧
  (∀ (s : State) (d : Param) (a : Answer) (r : Word), d.mode ≠ .relative →
    State.receive d a { s with rb := r } = { s.receive d a with rb := r }) ∧
  (∀ (s : State) (r : Word), fetch { s with rb := r } = fetch s) ∧
  (∀ (s : State) (m : Message) (r : Word), State.accept m { s with rb := r } = { s.accept m with rb := r }) ∧
  (∀ cfg prog k as, (State.start cfg prog k as).rb = 0) ∧ State.reset.rb = 0

/-! What the instructions do. -/

/-- ADD (R400, R401): when both sources resolve, the exact sum is a word and the destination is an address, ADD stores the sum
there, goes on by 4, and changes nothing else. A source may be the destination, and the instruction may store into itself. The
model's own here: the canonical form of memory (log 2). -/
def Obligations.AddStoresExactSum : Prop :=
  ∀ (s : State) (a b d : Param) (x y : Word) (c : Int), s.mem.wf → resolveSrc a s = .ok x → resolveSrc b s = .ok y →
    InWord (x.toInt + y.toInt) → effAddr s.rb d = some c → s.inBounds c →
    ∃ t, exec (.add a b d) s = .next t ∧ (t.mem.read c.toNat).toInt = x.toInt + y.toInt ∧
      (∀ n, n ≠ c.toNat → t.mem.read n = s.mem.read n) ∧ t = { s with mem := t.mem, ip := s.ip + 4 }

/-- MUL (R400, R402): as ADD, with the exact product. The model's own here: the canonical form of memory (log 2). -/
def Obligations.MulStoresExactProduct : Prop :=
  ∀ (s : State) (a b d : Param) (x y : Word) (c : Int), s.mem.wf → resolveSrc a s = .ok x → resolveSrc b s = .ok y →
    InWord (x.toInt * y.toInt) → effAddr s.rb d = some c → s.inBounds c →
    ∃ t, exec (.mul a b d) s = .next t ∧ (t.mem.read c.toNat).toInt = x.toInt * y.toInt ∧
      (∀ n, n ≠ c.toNat → t.mem.read n = s.mem.read n) ∧ t = { s with mem := t.mem, ip := s.ip + 4 }

/-- LT (R400, R403): stores 1 if the first source is less than the second as a signed integer, else 0. That parameter 1 stands
on the left is supplied by the spec from general knowledge (G2, log 15). The model's own here: the canonical form of memory (log
2). -/
def Obligations.LtStoresSignedComparison : Prop :=
  ∀ (s : State) (a b d : Param) (x y : Word) (c : Int), s.mem.wf → resolveSrc a s = .ok x → resolveSrc b s = .ok y →
    effAddr s.rb d = some c → s.inBounds c →
    ∃ t, exec (.lt a b d) s = .next t ∧ (x.toInt < y.toInt → t.mem.read c.toNat = 1) ∧
      (y.toInt ≤ x.toInt → t.mem.read c.toNat = 0) ∧
      (∀ n, n ≠ c.toNat → t.mem.read n = s.mem.read n) ∧ t = { s with mem := t.mem, ip := s.ip + 4 }

/-- EQ (R400, R404): stores 1 if the sources are equal, else 0. The model's own here: the canonical form of memory (log 2). -/
def Obligations.EqStoresEqualityTest : Prop :=
  ∀ (s : State) (a b d : Param) (x y : Word) (c : Int), s.mem.wf → resolveSrc a s = .ok x → resolveSrc b s = .ok y →
    effAddr s.rb d = some c → s.inBounds c →
    ∃ t, exec (.eq a b d) s = .next t ∧ (x.toInt = y.toInt → t.mem.read c.toNat = 1) ∧
      (x.toInt ≠ y.toInt → t.mem.read c.toNat = 0) ∧
      (∀ n, n ≠ c.toNat → t.mem.read n = s.mem.read n) ∧ t = { s with mem := t.mem, ip := s.ip + 4 }

/-- ADD, MUL (decision D2) and ARB (decision D3), R405, R604: a result outside the word range faults and nothing is stored;
where the destination could have been written, so that no other fault applies, the record is ArithmeticOverflow with the exact
result. The record's format is D14, and that nothing else changes is D13. The model's own here: a fault as a next state (log 8)
and where a record's word comes from (log 9). -/
def Obligations.ResultOutsideWordRangeFaults : Prop :=
  (∀ (s : State) (a b d : Param) (x y : Word), resolveSrc a s = .ok x → resolveSrc b s = .ok y →
    (¬ InWord (x.toInt + y.toInt) → ∃ f, exec (.add a b d) s = .next { s with phase := .faulted f } ∧
      ∀ c, effAddr s.rb d = some c → s.inBounds c →
        f = ⟨s.ip, s.fetchedWord, .arithmeticOverflow .add (x.toInt + y.toInt)⟩) ∧
    (¬ InWord (x.toInt * y.toInt) → ∃ f, exec (.mul a b d) s = .next { s with phase := .faulted f } ∧
      ∀ c, effAddr s.rb d = some c → s.inBounds c →
        f = ⟨s.ip, s.fetchedWord, .arithmeticOverflow .mul (x.toInt * y.toInt)⟩)) ∧
  (∀ (s : State) (p : Param) (v : Word), resolveSrc p s = .ok v → ¬ InWord (s.rb.toInt + v.toInt) →
    exec (.arb p) s = .next { s with
      phase := .faulted ⟨s.ip, s.fetchedWord, .arithmeticOverflow .arb (s.rb.toInt + v.toInt)⟩ }) ∧
  (∀ op r, (FaultDetail.arithmeticOverflow op r).code = 4)

/-- JT (R440): with both operands resolved (decision D8: also when not taken), the jump is taken exactly when the condition is
not 0; nothing else changes, and the target is not checked. That the target is not checked is D7. -/
def Obligations.JumpIfTrueSetsIp : Prop :=
  ∀ (s : State) (c g : Param) (x y : Word), resolveSrc c s = .ok x → resolveSrc g s = .ok y →
    (x.toInt ≠ 0 → exec (.jt c g) s = .next { s with ip := y }) ∧
    (x.toInt = 0 → exec (.jt c g) s = .next { s with ip := s.ip + 3 })

/-- JF (R441): as JT, taken exactly when the condition is 0. That the target is not checked is D7. -/
def Obligations.JumpIfFalseSetsIp : Prop :=
  ∀ (s : State) (c g : Param) (x y : Word), resolveSrc c s = .ok x → resolveSrc g s = .ok y →
    (x.toInt = 0 → exec (.jf c g) s = .next { s with ip := y }) ∧
    (x.toInt ≠ 0 → exec (.jf c g) s = .next { s with ip := s.ip + 3 })

/-- R442 (decision D7): a taken jump to a target outside memory completes; the next step faults at the fetch, with the target as
the record's `ip` and no word. The record's format is D14, and that nothing else changes is D13. The model's own here: a fault
as a next state (log 8) and where a record's word comes from (log 9). -/
def Obligations.BadTargetFaultsAtNextFetch : Prop :=
  ∀ (s : State) (i : Instr) (c g : Param) (x y : Word), s.phase = .ready → s.holdsAtIp i →
    (i = .jt c g ∧ x.toInt ≠ 0 ∨ i = .jf c g ∧ x.toInt = 0) → resolveSrc c s = .ok x → resolveSrc g s = .ok y →
    ¬ s.inBounds y.toInt →
    steps 1 s = .next { s with ip := y } ∧
    steps 2 s =
      .next { s with ip := y, phase := .faulted ⟨y, none, .outOfBoundsAccess y.toInt .fetch⟩ }

/-- ARB (R460): when the source resolves and the exact sum is a word, ARB adds it to `rb`, goes on by 2, and changes nothing
else; a Relative source is read with the old `rb`. -/
def Obligations.ArbAddsToRelativeBase : Prop :=
  ∀ (s : State) (p : Param) (v : Word), resolveSrc p s = .ok v → InWord (s.rb.toInt + v.toInt) →
    ∃ t, exec (.arb p) s = .next t ∧ t.rb.toInt = s.rb.toInt + v.toInt ∧ t = { s with rb := t.rb, ip := s.ip + 2 }

/-- IN, OUT, HLT (R423, R424, R480): what each does in its `τ` step: it only enters its waiting phase, `ip` staying at it. The
phases are D24, that IN does not look at its destination yet is D9, and that `ip` stays is D12 for OUT and D15 for HLT. -/
def Obligations.PortInstructionsEnterTheirWait : Prop :=
  (∀ (s : State) (d : Param), exec (.inp d) s = .next { s with phase := .offerReq d }) ∧
  (∀ (s : State) (p : Param) (v : Word), resolveSrc p s = .ok v → exec (.out p) s = .next { s with phase := .offerOut v }) ∧
  (∀ s : State, exec .hlt s = .next { s with phase := .offerShutdown })

/-- IN (R423; the order of its checks is decision D9): once the environment accepts `RequestInput` and answers `Data(v)`, three
steps store `v`, go on by 2 and leave `RequestInput` and the answer in the trace. The environment fields and the trace are the
model's (logs 4, 5). The model's own here: the canonical form of memory (log 2). -/
def Obligations.InputStoresTheAnswer : Prop :=
  ∀ (s : State) (d : Param) (v : Word) (c : Int) (k : Nat) (as : List Answer), s.mem.wf → s.phase = .ready →
    s.holdsAtIp (.inp d) → s.accepts = k + 1 → s.answers = .message (.data v) :: as → effAddr s.rb d = some c →
    s.inBounds c →
    ∃ t, steps 3 s = .next t ∧ t.mem.read c.toNat = v ∧
      (∀ n, n ≠ c.toNat → t.mem.read n = s.mem.read n) ∧
      t = { s with mem := t.mem, ip := s.ip + 2, accepts := k, answers := as,
                   trace := s.trace ++ [.send .requestInput, .recv (.message (.data v))] }

/-- IN (R605, R606; decisions D10, D11): an answer that is no `Data` faults; it is consumed, and memory, `ip` and `rb` stay. The
record's format is D14, and that nothing else changes is D13. That these faults are reported also where the destination is
Immediate or out of bounds is D9 and the order D7 (log 19); the environment fields, the trace and the record's word are the
model's (logs 4, 5, 9). The model's own here: a fault as a next state (log 8). -/
def Obligations.InputFaultsWithoutData : Prop :=
  ∀ (s : State) (d : Param) (a : Answer) (as : List Answer), s.phase = .awaitIn d → s.answers = a :: as →
    (∀ m, a = .message m → (∀ v, m ≠ .data v) →
      step s = .next { s with answers := as, trace := s.trace ++ [.recv a],
                              phase := .faulted ⟨s.ip, s.fetchedWord, .inputNotData m⟩ }) ∧
    (a = .closed →
      step s = .next { s with answers := as, trace := s.trace ++ [.recv a],
                              phase := .faulted ⟨s.ip, s.fetchedWord, .starvedInput⟩ }) ∧
    (∀ m, (FaultDetail.inputNotData m).code = 5) ∧ FaultDetail.starvedInput.code = 6

/-- OUT (R424; decision D12): once the environment accepts, two steps send the source's value and go on by 2; until then `ip`
stays at the OUT. The environment fields, the trace and the refusal of a stuck core are the model's (logs 4, 5, 6). -/
def Obligations.OutputSendsItsSource : Prop :=
  ∀ (s : State) (p : Param) (v : Word), s.phase = .ready → s.holdsAtIp (.out p) → resolveSrc p s = .ok v →
    steps 1 s = .next { s with phase := .offerOut v } ∧
    (s.accepts = 0 → steps 2 s = .refused .environmentSilent) ∧
    (∀ k, s.accepts = k + 1 → steps 2 s =
      .next { s with ip := s.ip + 2, accepts := k, trace := s.trace ++ [.send (.data v)] })

/-- HLT (R480, R481; decisions D15, D23): once the environment accepts `Shutdown`, two steps end the run normally with `ip`,
`rb` and memory unchanged, and no step follows. In every state, the host observes exactly the memory and the trace if the core
is `Halted`, and nothing if it is in any other phase, faulted ones included. That `ip` stays is D15 (log 20); the environment
field, the trace and the outcome after the end are the model's (logs 4, 5, 7). -/
def Obligations.HaltEndsTheRun : Prop :=
  (∀ (s : State) (k : Nat), s.phase = .ready → s.holdsAtIp .hlt → s.accepts = k + 1 →
    ∃ t, steps 2 s = .next t ∧
      t = { s with phase := .halted, accepts := k, trace := s.trace ++ [.send .shutdown] } ∧
      t.observe = some ⟨s.mem, s.trace ++ [.send .shutdown]⟩ ∧ step t = .fault .halted) ∧
  ∀ s : State, (s.phase = .halted → s.observe = some ⟨s.mem, s.trace⟩) ∧ (s.phase ≠ .halted → s.observe = none)

/-! Frames. -/

/-- ADD, MUL, LT, EQ (R204, R400): whatever they do, faults included, `rb`, the machine's parameter and everything of the port
stay, and so does every word of memory but the one at the destination's address. That a faulting one changes nothing is D13, and
that an exact Relative sum out of bounds faults, and stores nowhere, is D4. The model's own here: the environment fields (log
4), the trace (log 5) and a fault as a next state (log 8). -/
def Obligations.AluFrame : Prop :=
  ∀ (s t : State) (a b d : Param), ∀ e ∈ aluTable, exec (e.1 a b d) s = .next t →
    t.rb = s.rb ∧ t.config = s.config ∧ t.accepts = s.accepts ∧ t.answers = s.answers ∧ t.trace = s.trace ∧
    (t.phase = s.phase ∨ t.phase.isFault = true ∧ t.ip = s.ip) ∧
    ∀ n : Nat, (∀ c, effAddr s.rb d = some c → (n : Int) ≠ c) → t.mem.read n = s.mem.read n

/-- IN (its `τ` step), OUT, JT, JF, ARB, HLT store nothing (R204): every word of memory reads as before; `rb` stays but for ARB;
the machine's parameter and everything of the port stay; `ip` stays for IN, OUT and HLT. That a faulting one changes nothing is
D13; that `ip` stays is D12 for OUT and D15 for HLT (log 20). The model's own here: the environment fields (log 4) and the trace
(log 5). -/
def Obligations.NonStoringFrame : Prop :=
  ∀ (s t : State) (i : Instr), i.opcode ∈ [Opcode.inp, .out, .jt, .jf, .arb, .hlt] → exec i s = .next t →
    (∀ n, t.mem.read n = s.mem.read n) ∧ t.config = s.config ∧ t.accepts = s.accepts ∧ t.answers = s.answers ∧
    t.trace = s.trace ∧ (i.opcode ≠ .arb → t.rb = s.rb) ∧ (i.opcode ∈ [Opcode.inp, .out, .hlt] → t.ip = s.ip)

/-- A port step (R423, R424, R480, R646) leaves `rb` and every word of memory but the one at the address of the awaited
destination. That a faulting IN stores nothing is D13, and that an exact Relative sum out of bounds faults is D4. -/
def Obligations.PortStepFrame : Prop :=
  ∀ s t : State, s.phase.waiting = true → step s = .next t →
    t.rb = s.rb ∧ t.config = s.config ∧
    ∀ n : Nat, (∀ d c, s.phase = .awaitIn d → effAddr s.rb d = some c → (n : Int) ≠ c) → t.mem.read n = s.mem.read n

/-- R102, R103, R104: without a fault, an instruction at an address of memory leaves `ip` at itself (IN, OUT, HLT, which go on
or stop at their port step), goes past its own words without wrapping, or, if it is a jump, goes to the target's value. That
`ip` stays until the port step is D12 for OUT, that it stays at a HLT D15 (log 20), and that a jump target is unchecked D7. The
model's own here: a fault as a next state (log 8). -/
def Obligations.IpGoesPastTheInstruction : Prop :=
  ∀ (s t : State) (i : Instr), s.inBounds s.ip.toInt → exec i s = .next t → t.phase.isFault = false →
    (i.opcode ∈ [Opcode.inp, .out, .hlt] → t.ip = s.ip) ∧
    (i.opcode ∈ [Opcode.add, .mul, .lt, .eq, .arb] → t.ip.toInt = s.ip.toInt + i.length) ∧
    (∀ c g, i = .jt c g ∨ i = .jf c g → t.ip.toInt = s.ip.toInt + 3 ∨ resolveSrc g s = .ok t.ip)

/-! The whole machine. -/

/-- Every step keeps the memory invariant: the canonical form, which is the model's choice (log 2), and no address listed that
does not exist (R200, R207). That a faulting instruction stores nothing is D13. -/
def Obligations.StepKeepsMemoryInv : Prop :=
  ∀ s t : State, s.MemoryInv → step s = .next t → t.MemoryInv

/-- Every step keeps what phase and memory say of each other (R112, R607): a waiting or halted core still has at `ip` the
instruction that made it wait or halt, with the latched value or destination; a fault record names the instruction at `ip`. That
the operands are latched in the phase, and where a record's word comes from, are the model's reading (logs 17, 9). The phases
are D24, that `ip` stays at a waiting OUT is D12, that it stays at the HLT after a halt is D15 (log 20), and the record and that
`ip` stays at a fault are D14 and D13. The model's own here: a fault as a next state (log 8). -/
def Obligations.StepKeepsLatchInv : Prop :=
  ∀ s t : State, s.LatchInv → step s = .next t → t.LatchInv

/-- Every step keeps the port protocol (R426, and R423, R605, R606, R613 for what ends it): each `RequestInput` is answered
before anything else is sent, `Shutdown` is the last send, and nothing follows an answer that is no `Data`. The trace is the
model's field (log 5). That nothing follows an answer that is no Data is not R426's: it rests on D10, D11 and D13, by which such
an answer faults and a faulted core sends nothing (R423, R605, R606, R613, log 19). That nothing follows Shutdown rests on D15
(R123). -/
def Obligations.StepKeepsProtocolInv : Prop :=
  ∀ s t : State, s.ProtocolInv → step s = .next t → t.ProtocolInv

/-- The reset states meet the invariants, for every program that fits, and no port step has been made. The canonical form of
memory is the model's choice (log 2), and the trace is the model's field (log 5). The phase at reset is D24. The model's own
here: the environment fields (log 4) and `State.start` as the reset of a loaded program (log 10). -/
def Obligations.ResetMeetsInvariants : Prop :=
  (State.reset.MemoryInv ∧ State.reset.LatchInv ∧ State.reset.ProtocolInv ∧ State.reset.trace = []) ∧
  ∀ (cfg : Config) (prog : List Word) (k : Nat) (as : List Answer), prog.length ≤ cfg.arenaSize →
    (State.start cfg prog k as).MemoryInv ∧ (State.start cfg prog k as).LatchInv ∧
      (State.start cfg prog k as).ProtocolInv ∧ (State.start cfg prog k as).trace = []

/-- R426 item 4 (90_conflicts.md C2): where the protocol invariant holds, a `Shutdown` in the trace is its last step and the run
has ended normally; a faulted run has sent none (R613). That a faulted core has sent none is D13 and that a halted one sends
nothing more D15; the trace is the model's field (log 5). -/
def Obligations.ShutdownIsLastAndHalts : Prop :=
  ∀ s : State, s.ProtocolInv →
    (∀ pre post, s.trace = pre ++ .send .shutdown :: post → post = [] ∧ s.phase = .halted) ∧
    (s.phase.isFault = true → .send .shutdown ∉ s.trace)

/-- R607, R611 (decision D13): faults are precise. A step that faults leaves memory, `ip`, `rb` and the parameter; its record
names the instruction at `ip` and has one of the six codes; of the port it records at most the answer it consumed, and it sends
nothing (R613). The codes and the record are D14 and its word log 9; that a fault is a next state is log 8; the environment
fields and the trace are the model's (logs 4, 5). -/
def Obligations.FaultsArePrecise : Prop :=
  ∀ (s t : State) (f : FaultRecord), step s = .next t → t.phase = .faulted f →
    t.mem = s.mem ∧ t.ip = s.ip ∧ t.rb = s.rb ∧ t.config = s.config ∧ t.accepts = s.accepts ∧
    f.ip = s.ip ∧ f.word = s.fetchedWord ∧ 1 ≤ f.code ∧ f.code ≤ 6 ∧
    (s.phase = .ready ∧ t.trace = s.trace ∨
      ∃ d a, s.phase = .awaitIn d ∧ s.answers = a :: t.answers ∧ t.trace = s.trace ++ [.recv a])

/-- R481, R650: a run ends normally only through HLT: `Halted` is entered only by the acceptance of `Shutdown`, which only HLT
offers. That the core halts only when the offer is accepted is D12 and R480; the trace is the model's field (log 5). -/
def Obligations.OnlyHaltEndsNormally : Prop :=
  ∀ s t : State, step s = .next t →
    (t.phase = .halted → s.phase = .offerShutdown ∧ t.trace = s.trace ++ [.send .shutdown]) ∧
    (t.phase = .offerShutdown → s.phase = .ready ∧ fetch s = .ok .hlt)

/-- R211: a word stored where the next instruction word stands is the one the next step fetches, with no delay. The format of
the record in the last clause is D14, and that nothing else changes is D13. Which words are no instruction words, and which
sub-cause the record has where several apply, are D5, D6 and the order D7 (log 19). The model's own here: the canonical form of
memory (log 2), a fault as a next state (log 8) and where a record's word comes from (log 9). -/
def Obligations.StoreIsSeenByTheNextFetch : Prop :=
  ∀ (s t : State) (a b d : Param) (x y r : Word), ∀ e ∈ aluTable, s.mem.wf → s.inBounds s.ip.toInt →
    resolveSrc a s = .ok x → resolveSrc b s = .ok y → e.2 x y = .ok r → effAddr s.rb d = some (s.ip.toInt + 4) →
    s.inBounds (s.ip.toInt + 4) → exec (e.1 a b d) s = .next t →
    memRead t.ip.toInt .fetch t = .ok r ∧
    (t.phase = .ready → ∀ m, decodeHead r = .error m →
      step t = .next { t with phase := .faulted ⟨t.ip, some r, .malformedInstruction m⟩ })

/-- The canonical form is one per memory: two canonical memories that read alike everywhere are equal (log 2). -/
def Obligations.CanonicalMemoriesAreEqual : Prop :=
  ∀ m n : Memory, m.wf → n.wf → (∀ a, m.read a = n.read a) → m = n

/-- R650: divergence is kept: `JT #1, #0` at address 0 runs for ever, each step leading back to the same state. -/
def Obligations.TightLoopNeverEnds : Prop :=
  ∀ (s : State) (k : Nat), s.phase = .ready → s.ip = 0 → s.holdsAtIp (pseudoJmp (.imm 0)) →
    steps k s = .next s

/-! The assembly language and the host's loader. -/

/-- R324 (decision D18): NOP only goes on by 3, JMP goes to its target, MOV copies its source. The model's own here: the
canonical form of memory (log 2). -/
def Obligations.PseudoInstructionsAct : Prop :=
  ∀ (s : State) (p d : Param) (x : Word), resolveSrc p s = .ok x →
    exec pseudoNop s = .next { s with ip := s.ip + 3 } ∧
    exec (pseudoJmp p) s = .next { s with ip := x } ∧
    (∀ c, s.mem.wf → effAddr s.rb d = some c → s.inBounds c →
      ∃ t, exec (pseudoMov p d) s = .next t ∧ t.mem.read c.toNat = x ∧
        (∀ n, n ≠ c.toNat → t.mem.read n = s.mem.read n) ∧ t = { s with mem := t.mem, ip := s.ip + 4 })

/-- R320, R321, R322, R324 (decisions D17, D18): a program written as instructions and pseudo-instructions with numbers for
operands assembles to the encodings of what they stand for, one after another: as parsed lines, and as text, one statement a
line, each operand in R320's form with any decimal writing of its number. The white space used in the text, and a line feed
between lines, are the model's choice (logs 13, 14). -/
def Obligations.AssemblerEmitsEncodings : Prop :=
  (∀ is : List Instr,
    assembleLines (is.map fun i => ⟨none, some (.instr i.opcode (i.params.map fun p => ⟨p.mode, .num p.word.toInt⟩))⟩) =
      some (is.flatMap encode)) ∧
  ∀ lines : List (SourceStmt × List TextItem), (∀ l ∈ lines, l.1.writtenBy l.2) →
    assembleText (joinChars ['\n'] (lines.map fun l => l.1.chars l.2)) = some (lines.flatMap fun l => encode l.1.expand)

/-- The model's own (logs 11 and 12): an instruction given as one number and placed for the next fetch is the one the next step
runs. The canonical form of memory is the model's own too (log 2). -/
def Obligations.PlacedInstructionRuns : Prop :=
  ∀ (s : State) (nbits w : Nat) (i : Instr), 4 ≤ s.config.arenaSize → s.mem.wf → decodeTableWord nbits w = some i →
    step (s.withFetchWord nbits w) = exec i (s.withFetchWord nbits w)
end

