-- ==== Sys2Proof/Laws/Word.lean ====
section
/-! SUPPORT. Words as exact integers. -/

namespace Sys2Proof

/-- The word range in numerals, for `omega`. -/
theorem inWord_iff {v : Int} : InWord v ↔ -9223372036854775808 ≤ v ∧ v ≤ 9223372036854775807 := Iff.rfl

theorem Word.inWord_toInt (x : Word) : InWord x.toInt := by
  have h1 := BitVec.le_toInt x
  have h2 := BitVec.toInt_lt (x := x)
  rw [inWord_iff]
  constructor <;> omega

theorem Word.toInt_ofInt {v : Int} (h : InWord v) : (Word.ofInt v).toInt = v := by
  obtain ⟨h1, h2⟩ := inWord_iff.mp h
  rw [Word.ofInt, BitVec.toInt_ofInt]
  exact Int.bmod_eq_of_le (by omega) (by omega)

@[simp] theorem Word.ofInt_toInt (x : Word) : Word.ofInt x.toInt = x := BitVec.ofInt_toInt

/-- A word that is not negative has the same value signed and unsigned. -/
theorem Word.toInt_of_nonneg {x : Word} (h : 0 ≤ x.toInt) : x.toInt = x.toNat := by
  rw [BitVec.toInt_eq_toNat_cond] at h ⊢
  split
  · rfl
  · rename_i hc
    rw [if_neg hc] at h
    have := x.isLt
    omega

/-- A small natural number as a word. -/
theorem Word.toInt_ofNat {n : Nat} (h : n < 9223372036854775808) : (BitVec.ofNat 64 n).toInt = n := by
  rw [BitVec.toInt_eq_toNat_cond, BitVec.toNat_ofNat, Nat.mod_eq_of_lt (by omega)]
  split <;> omega

/-- Going on by a small number of words is exact while the sum is a word (R104). -/
theorem Word.toInt_add_ofNat {x : Word} {n : Nat} (hn : n < 9223372036854775808) (h : InWord (x.toInt + n)) :
    (x + BitVec.ofNat 64 n).toInt = x.toInt + n := by
  obtain ⟨h1, h2⟩ := inWord_iff.mp h
  rw [BitVec.toInt_add, Word.toInt_ofNat hn]
  exact Int.bmod_eq_of_le (by omega) (by omega)

end Sys2Proof
end

