-- ==== Sys2Proof/Laws/Decode.lean ====
section
/-! SUPPORT. The small laws of the decoder and the encoder. -/

namespace Sys2Proof

theorem Mode.ofDigit?_eq_some {d : Nat} {m : Mode} : Mode.ofDigit? d = some m ↔ d = m.toDigit := by
  unfold Mode.ofDigit?
  split
  · cases m <;> simp_all [Mode.toDigit]
  · split
    · cases m <;> simp_all [Mode.toDigit]
    · split
      · cases m <;> simp_all [Mode.toDigit]
      · cases m <;> simp_all [Mode.toDigit]

theorem Mode.toDigit_lt (m : Mode) : m.toDigit < 3 := by
  cases m <;> simp [Mode.toDigit]

theorem Opcode.ofCode?_code (op : Opcode) : Opcode.ofCode? op.code = some op := by
  cases op <;> rfl

theorem Opcode.code_of_ofCode? {n : Nat} {op : Opcode} (h : Opcode.ofCode? n = some op) : n = op.code := by
  unfold Opcode.ofCode? at h
  repeat' split at h
  all_goals first
    | (cases h; assumption)
    | cases h

theorem Opcode.code_lt (op : Opcode) : op.code < 100 := by
  cases op <;> simp [Opcode.code]

@[simp] theorem Mode.param_mode (m : Mode) (w : Word) : (m.param w).mode = m := by
  cases m <;> rfl

@[simp] theorem Mode.param_word (m : Mode) (w : Word) : (m.param w).word = w := by
  cases m <;> rfl

@[simp] theorem Param.mode_param_word (p : Param) : p.mode.param p.word = p := by
  cases p <;> rfl

theorem decodeMode_ok {w k : Nat} {m : Mode} : decodeMode w k = .ok m ↔ w / 10 ^ (k + 1) % 10 = m.toDigit := by
  unfold decodeMode digit
  split
  · rename_i m' hm
    rw [Mode.ofDigit?_eq_some] at hm
    rw [hm]
    cases m <;> cases m' <;> simp [Mode.toDigit]
  · rename_i hm
    simp only [reduceCtorEq, false_iff]
    intro h
    rw [Mode.ofDigit?_eq_some.mpr h] at hm
    cases hm

theorem checkExcess_ok {w n : Nat} {h h' : Head} : checkExcess w n h = .ok h' ↔ w / 10 ^ (n + 2) = 0 ∧ h = h' := by
  unfold checkExcess
  split <;> simp_all

theorem Head.modeDigit_lt (h : Head) (k : Nat) : h.modeDigit k < 3 := by
  unfold Head.modeDigit
  split
  · exact Mode.toDigit_lt _
  · decide

/-- The number an instruction word is (R301). -/
theorem Head.encode_toNat (h : Head) :
    h.encode.toNat = (h.modeDigit 1 + 10 * h.modeDigit 2 + 100 * h.modeDigit 3) * 100 + h.opcode.code := by
  have h1 := h.modeDigit_lt 1
  have h2 := h.modeDigit_lt 2
  have h3 := h.modeDigit_lt 3
  have h4 := h.opcode.code_lt
  rw [Head.encode, packWord, BitVec.toNat_ofNat]
  exact Nat.mod_eq_of_lt (by omega)

end Sys2Proof
end

