-- ==== Sys2Proof/Laws/Memory.lean ====
section
/-! SUPPORT. The laws of the memory operations: read after write, the canonical form, the bound on listed addresses. -/

namespace Sys2Proof.Machine

theorem Memory.read_write_same (m : Memory) (a : Nat) (v : Word) (h : m.wf) : (m.write a v).read a = v := by
  induction m with
  | nil => by_cases hv : v = Memory.unlisted <;> simp [Memory.write, Memory.read, hv]
  | cons c m ih =>
    obtain ⟨b, u⟩ := c
    obtain ⟨hp, hz⟩ := h
    rw [List.pairwise_cons] at hp
    have hno : ∀ m' : Memory, (∀ c ∈ m', a < c.1) → m'.read a = Memory.unlisted := by
      intro m' hm'
      induction m' with
      | nil => rfl
      | cons c m' ih' =>
        have : a ≠ c.1 := by have := hm' c (by simp); omega
        simpa [Memory.read, this] using ih' fun c hc => hm' c (by simp [hc])
    rw [Memory.write]
    split
    · rename_i hab
      split
      · rename_i hv
        subst hv
        refine hno _ fun c hc => ?_
        rcases List.mem_cons.mp hc with rfl | hc
        · exact hab
        · have := hp.1 c hc
          omega
      · simp [Memory.read]
    · split
      · rename_i hab
        subst hab
        split
        · rename_i hv
          subst hv
          exact hno _ fun c hc => hp.1 c hc
        · simp [Memory.read]
      · rename_i hne
        simpa [Memory.read, hne] using ih ⟨hp.2, fun c hc => hz c (by simp [hc])⟩

theorem Memory.read_write_other (m : Memory) {a b : Nat} (v : Word) (h : b ≠ a) : (m.write a v).read b = m.read b := by
  induction m with
  | nil => by_cases hv : v = Memory.unlisted <;> simp [Memory.write, Memory.read, hv, h]
  | cons c m ih =>
    obtain ⟨c, u⟩ := c
    rw [Memory.write]
    split
    · split <;> simp [Memory.read, h]
    · split
      · rename_i hac
        subst hac
        split <;> simp [Memory.read, h]
      · simp [Memory.read, ih]

/-- Every cell of a memory after a write is an old one or the written one. -/
theorem Memory.mem_write {m : Memory} {a : Nat} {v : Word} {c : Nat × Word} (h : c ∈ m.write a v) :
    c ∈ m ∨ (c = (a, v) ∧ v ≠ Memory.unlisted) := by
  induction m with
  | nil =>
    by_cases hv : v = Memory.unlisted
    · simp [Memory.write, hv] at h
    · simp [Memory.write, hv] at h
      exact .inr ⟨h, hv⟩
  | cons e m ih =>
    obtain ⟨b, u⟩ := e
    rw [Memory.write] at h
    split at h
    · split at h
      · exact .inl h
      · rename_i hv
        rcases List.mem_cons.mp h with h | h
        · exact .inr ⟨h, hv⟩
        · exact .inl h
    · split at h
      · split at h
        · exact .inl (List.mem_cons_of_mem _ h)
        · rename_i hv
          rcases List.mem_cons.mp h with h | h
          · exact .inr ⟨h, hv⟩
          · exact .inl (List.mem_cons_of_mem _ h)
      · rcases List.mem_cons.mp h with rfl | h
        · exact .inl (List.mem_cons_self ..)
        · exact (ih h).imp (List.mem_cons_of_mem _) id

theorem Memory.write_wf {m : Memory} (a : Nat) (v : Word) (h : m.wf) : (m.write a v).wf := by
  refine ⟨?_, fun c hc => ?_⟩
  · induction m with
    | nil => by_cases hv : v = Memory.unlisted <;> simp [Memory.write, hv]
    | cons e m ih =>
      obtain ⟨b, u⟩ := e
      obtain ⟨hp, hz⟩ := h
      have hp' := List.pairwise_cons.mp hp
      rw [Memory.write]
      split
      · rename_i hab
        split
        · exact hp
        · refine List.pairwise_cons.mpr ⟨fun c hc => ?_, hp⟩
          rcases List.mem_cons.mp hc with rfl | hc
          · exact hab
          · have := hp'.1 c hc
            exact Nat.lt_trans hab this
      · split
        · rename_i hab
          subst hab
          split
          · exact hp'.2
          · exact List.pairwise_cons.mpr ⟨hp'.1, hp'.2⟩
        · refine List.pairwise_cons.mpr ⟨fun c hc => ?_, ih ⟨hp'.2, fun c hc => hz c (by simp [hc])⟩⟩
          rcases Memory.mem_write hc with hc | ⟨rfl, -⟩
          · exact hp'.1 c hc
          · show b < a
            omega
  · rcases Memory.mem_write hc with hc | ⟨rfl, hv⟩
    · exact h.2 c hc
    · exact hv

/-- A write below a bound keeps every listed address below it. -/
theorem Memory.write_lt {m : Memory} {a n : Nat} {v : Word} (h : ∀ c ∈ m, c.1 < n) (ha : a < n) :
    ∀ c ∈ m.write a v, c.1 < n := by
  intro c hc
  rcases Memory.mem_write hc with hc | ⟨rfl, -⟩
  · exact h c hc
  · exact ha

/-- Every cell of a loaded memory stands at a program address and holds a word that is listed. -/
theorem Memory.mem_ofWords {a : Nat} {ws : List Word} {c : Nat × Word} (h : c ∈ Memory.ofWords a ws) :
    a ≤ c.1 ∧ c.1 < a + ws.length ∧ c.2 ≠ Memory.unlisted := by
  induction ws generalizing a with
  | nil => simp [Memory.ofWords] at h
  | cons w ws ih =>
    rw [Memory.ofWords] at h
    simp only [List.length_cons]
    split at h
    · have := ih h
      exact ⟨by omega, by omega, this.2.2⟩
    · rename_i hw
      rcases List.mem_cons.mp h with rfl | h
      · exact ⟨Nat.le_refl _, by show a < _; omega, hw⟩
      · have := ih h
        exact ⟨by omega, by omega, this.2.2⟩

theorem Memory.ofWords_wf (a : Nat) (ws : List Word) : (Memory.ofWords a ws).wf := by
  refine ⟨?_, fun c hc => (Memory.mem_ofWords hc).2.2⟩
  induction ws generalizing a with
  | nil => simp [Memory.ofWords]
  | cons w ws ih =>
    rw [Memory.ofWords]
    split
    · exact ih _
    · refine List.pairwise_cons.mpr ⟨fun c hc => ?_, ih _⟩
      have := (Memory.mem_ofWords hc).1
      show a < c.1
      omega

/-- The memory part of a placement keeps the canonical form. -/
theorem State.placeWords_wf (a : Nat) (ws : List Word) (s : State) (h : s.mem.wf) : (State.placeWords a ws s).mem.wf := by
  induction ws generalizing a s with
  | nil => exact h
  | cons w ws ih =>
    rw [State.placeWords]
    refine ih _ _ ?_
    split
    · exact Memory.write_wf a w h
    · exact h

end Sys2Proof.Machine
end

