-- ==== Sys2Proof/Laws/State.lean ====
section
/-! SUPPORT. One lemma per field of State and per named update: what the update makes of the field. -/

namespace Sys2Proof.Machine

@[simp] theorem State.advance_config (n : Nat) (s : State) : (s.advance n).config = s.config := rfl
@[simp] theorem State.advance_mem (n : Nat) (s : State) : (s.advance n).mem = s.mem := rfl
@[simp] theorem State.advance_ip (n : Nat) (s : State) : (s.advance n).ip = s.ip + BitVec.ofNat 64 n := rfl
@[simp] theorem State.advance_rb (n : Nat) (s : State) : (s.advance n).rb = s.rb := rfl
@[simp] theorem State.advance_phase (n : Nat) (s : State) : (s.advance n).phase = s.phase := rfl
@[simp] theorem State.advance_accepts (n : Nat) (s : State) : (s.advance n).accepts = s.accepts := rfl
@[simp] theorem State.advance_answers (n : Nat) (s : State) : (s.advance n).answers = s.answers := rfl
@[simp] theorem State.advance_trace (n : Nat) (s : State) : (s.advance n).trace = s.trace := rfl

@[simp] theorem State.jump_config (t : Word) (s : State) : (s.jump t).config = s.config := rfl
@[simp] theorem State.jump_mem (t : Word) (s : State) : (s.jump t).mem = s.mem := rfl
@[simp] theorem State.jump_ip (t : Word) (s : State) : (s.jump t).ip = t := rfl
@[simp] theorem State.jump_rb (t : Word) (s : State) : (s.jump t).rb = s.rb := rfl
@[simp] theorem State.jump_phase (t : Word) (s : State) : (s.jump t).phase = s.phase := rfl
@[simp] theorem State.jump_accepts (t : Word) (s : State) : (s.jump t).accepts = s.accepts := rfl
@[simp] theorem State.jump_answers (t : Word) (s : State) : (s.jump t).answers = s.answers := rfl
@[simp] theorem State.jump_trace (t : Word) (s : State) : (s.jump t).trace = s.trace := rfl

@[simp] theorem State.setRb_config (v : Word) (s : State) : (s.setRb v).config = s.config := rfl
@[simp] theorem State.setRb_mem (v : Word) (s : State) : (s.setRb v).mem = s.mem := rfl
@[simp] theorem State.setRb_ip (v : Word) (s : State) : (s.setRb v).ip = s.ip := rfl
@[simp] theorem State.setRb_rb (v : Word) (s : State) : (s.setRb v).rb = v := rfl
@[simp] theorem State.setRb_phase (v : Word) (s : State) : (s.setRb v).phase = s.phase := rfl
@[simp] theorem State.setRb_accepts (v : Word) (s : State) : (s.setRb v).accepts = s.accepts := rfl
@[simp] theorem State.setRb_answers (v : Word) (s : State) : (s.setRb v).answers = s.answers := rfl
@[simp] theorem State.setRb_trace (v : Word) (s : State) : (s.setRb v).trace = s.trace := rfl

@[simp] theorem State.setPhase_config (p : Phase) (s : State) : (s.setPhase p).config = s.config := rfl
@[simp] theorem State.setPhase_mem (p : Phase) (s : State) : (s.setPhase p).mem = s.mem := rfl
@[simp] theorem State.setPhase_ip (p : Phase) (s : State) : (s.setPhase p).ip = s.ip := rfl
@[simp] theorem State.setPhase_rb (p : Phase) (s : State) : (s.setPhase p).rb = s.rb := rfl
@[simp] theorem State.setPhase_phase (p : Phase) (s : State) : (s.setPhase p).phase = p := rfl
@[simp] theorem State.setPhase_accepts (p : Phase) (s : State) : (s.setPhase p).accepts = s.accepts := rfl
@[simp] theorem State.setPhase_answers (p : Phase) (s : State) : (s.setPhase p).answers = s.answers := rfl
@[simp] theorem State.setPhase_trace (p : Phase) (s : State) : (s.setPhase p).trace = s.trace := rfl

@[simp] theorem State.logPort_config (e : PortEvent) (s : State) : (s.logPort e).config = s.config := rfl
@[simp] theorem State.logPort_mem (e : PortEvent) (s : State) : (s.logPort e).mem = s.mem := rfl
@[simp] theorem State.logPort_ip (e : PortEvent) (s : State) : (s.logPort e).ip = s.ip := rfl
@[simp] theorem State.logPort_rb (e : PortEvent) (s : State) : (s.logPort e).rb = s.rb := rfl
@[simp] theorem State.logPort_phase (e : PortEvent) (s : State) : (s.logPort e).phase = s.phase := rfl
@[simp] theorem State.logPort_accepts (e : PortEvent) (s : State) : (s.logPort e).accepts = s.accepts := rfl
@[simp] theorem State.logPort_answers (e : PortEvent) (s : State) : (s.logPort e).answers = s.answers := rfl
@[simp] theorem State.logPort_trace (e : PortEvent) (s : State) : (s.logPort e).trace = s.trace ++ [e] := rfl

@[simp] theorem State.raise_config (d : FaultDetail) (s : State) : (s.raise d).config = s.config := rfl
@[simp] theorem State.raise_mem (d : FaultDetail) (s : State) : (s.raise d).mem = s.mem := rfl
@[simp] theorem State.raise_ip (d : FaultDetail) (s : State) : (s.raise d).ip = s.ip := rfl
@[simp] theorem State.raise_rb (d : FaultDetail) (s : State) : (s.raise d).rb = s.rb := rfl
@[simp] theorem State.raise_phase (d : FaultDetail) (s : State) : (s.raise d).phase = .faulted (s.faultRecord d) := rfl
@[simp] theorem State.raise_accepts (d : FaultDetail) (s : State) : (s.raise d).accepts = s.accepts := rfl
@[simp] theorem State.raise_answers (d : FaultDetail) (s : State) : (s.raise d).answers = s.answers := rfl
@[simp] theorem State.raise_trace (d : FaultDetail) (s : State) : (s.raise d).trace = s.trace := rfl

@[simp] theorem State.settle_ok (s t : State) : s.settle (.ok t) = t := rfl
@[simp] theorem State.settle_error (s : State) (d : FaultDetail) : s.settle (.error d) = s.raise d := rfl

@[simp] theorem State.faultRecord_ip (d : FaultDetail) (s : State) : (s.faultRecord d).ip = s.ip := rfl
@[simp] theorem State.faultRecord_word (d : FaultDetail) (s : State) : (s.faultRecord d).word = s.fetchedWord := rfl
@[simp] theorem State.faultRecord_detail (d : FaultDetail) (s : State) : (s.faultRecord d).detail = d := rfl

/-- What `ip` and memory hold decides the `word` of a fault record. -/
theorem State.fetchedWord_congr {s t : State} (hc : t.config = s.config) (hm : t.mem = s.mem) (hi : t.ip = s.ip) :
    t.fetchedWord = s.fetchedWord := by
  simp only [State.fetchedWord, State.inBounds, hc, hm, hi]

end Sys2Proof.Machine
end

