-- ==== Sys2Proof/Laws/Ops.lean ====
section
/-! SUPPORT. What each shared operation can answer, said once. -/

namespace Sys2Proof.Machine

/-- A guarded value of `Except` succeeds exactly under its guard. -/
theorem guard_ok {ε α : Type} {c : Prop} [Decidable c] {x y : α} {e : ε} :
    (if c then Except.ok x else Except.error e) = .ok y ↔ c ∧ x = y := by
  by_cases h : c
  · rw [if_pos h]
    exact ⟨fun k => ⟨h, Except.ok.inj k⟩, fun k => congrArg _ k.2⟩
  · rw [if_neg h]
    exact ⟨fun k => (nomatch k), fun k => absurd k.1 h⟩

/-- A guarded value of `Except` fails exactly without its guard. -/
theorem guard_error {ε α : Type} {c : Prop} [Decidable c] {x : α} {e e' : ε} :
    (if c then Except.ok x else Except.error e) = .error e' ↔ ¬ c ∧ e = e' := by
  by_cases h : c
  · rw [if_pos h]
    exact ⟨fun k => (nomatch k), fun k => absurd h k.1⟩
  · rw [if_neg h]
    exact ⟨fun k => ⟨h, Except.error.inj k⟩, fun k => congrArg _ k.2⟩

theorem memRead_ok {a : Int} {k : AccessKind} {s : State} {v : Word} :
    memRead a k s = .ok v ↔ s.inBounds a ∧ s.mem.read a.toNat = v :=
  guard_ok

theorem memRead_error {a : Int} {k : AccessKind} {s : State} {d : FaultDetail} :
    memRead a k s = .error d ↔ ¬ s.inBounds a ∧ .outOfBoundsAccess a k = d :=
  guard_error

theorem memWrite_ok {a : Int} {v : Word} {s t : State} :
    memWrite a v s = .ok t ↔ s.inBounds a ∧ { s with mem := s.mem.write a.toNat v } = t :=
  guard_ok

theorem memWrite_error {a : Int} {v : Word} {s : State} {d : FaultDetail} :
    memWrite a v s = .error d ↔ ¬ s.inBounds a ∧ .outOfBoundsAccess a .write = d :=
  guard_error

theorem resolveSrc_of_effAddr {p : Param} {s : State} {a : Int} (h : effAddr s.rb p = some a) :
    resolveSrc p s = memRead a .read s := by
  cases p <;> simp [effAddr] at h <;> subst h <;> rfl

theorem writeDst_ok {p : Param} {k : Nat} {v : Word} {s t : State} :
    writeDst p k v s = .ok t ↔
      ∃ a, effAddr s.rb p = some a ∧ s.inBounds a ∧ { s with mem := s.mem.write a.toNat v } = t := by
  unfold writeDst
  split <;> simp_all [memWrite_ok]

theorem narrow_ok {op : ArithOp} {v : Int} {w : Word} : narrow op v = .ok w ↔ InWord v ∧ Word.ofInt v = w :=
  guard_ok

theorem narrow_error {op : ArithOp} {v : Int} {d : FaultDetail} :
    narrow op v = .error d ↔ ¬ InWord v ∧ .arithmeticOverflow op v = d :=
  guard_error

/-- A value bound in `Except`: both parts succeed. -/
theorem bind_ok {ε α β : Type} {x : Except ε α} {f : α → Except ε β} {b : β} :
    (x >>= f) = .ok b ↔ ∃ a, x = .ok a ∧ f a = .ok b := by
  cases x <;> simp [bind, Except.bind]

/-- A fault bound in `Except`: the first part fails, or the second does. -/
theorem bind_error {ε α β : Type} {x : Except ε α} {f : α → Except ε β} {e : ε} :
    (x >>= f) = .error e ↔ x = .error e ∨ ∃ a, x = .ok a ∧ f a = .error e := by
  cases x <;> simp [bind, Except.bind]

theorem alu_ok {f : Word → Word → Except FaultDetail Word} {a b d : Param} {s t : State} :
    alu f a b d s = .ok t ↔
      ∃ x y r c, resolveSrc a s = .ok x ∧ resolveSrc b s = .ok y ∧ f x y = .ok r ∧ effAddr s.rb d = some c ∧
        s.inBounds c ∧ t = { s with mem := s.mem.write c.toNat r, ip := s.ip + 4#64 } := by
  simp only [alu, bind_ok, writeDst_ok, pure, Except.pure, Except.ok.injEq]
  constructor
  · rintro ⟨x, hx, y, hy, r, hr, u, ⟨c, hc, hb, rfl⟩, rfl⟩
    exact ⟨x, y, r, c, hx, hy, hr, hc, hb, rfl⟩
  · rintro ⟨x, y, r, c, hx, hy, hr, hc, hb, rfl⟩
    exact ⟨x, hx, y, hy, r, hr, _, ⟨c, hc, hb, rfl⟩, rfl⟩

theorem condJump_ok {p : Word → Bool} {c g : Param} {s t : State} :
    condJump p c g s = .ok t ↔
      ∃ x y, resolveSrc c s = .ok x ∧ resolveSrc g s = .ok y ∧ t = if p x then s.jump y else s.advance 3 := by
  simp only [condJump, bind_ok, pure, Except.pure, Except.ok.injEq]
  constructor
  · rintro ⟨x, hx, y, hy, rfl⟩
    exact ⟨x, y, hx, hy, rfl⟩
  · rintro ⟨x, y, hx, hy, rfl⟩
    exact ⟨x, hx, y, hy, rfl⟩

/-- An instruction ends with the state it computed, or with a fault raised in the state it started from. -/
theorem State.settle_cases (s : State) (r : Except FaultDetail State) :
    (∃ t, r = .ok t ∧ s.settle r = t) ∨ ∃ d, r = .error d ∧ s.settle r = s.raise d := by
  cases r with
  | ok t => exact .inl ⟨t, rfl, rfl⟩
  | error d => exact .inr ⟨d, rfl, rfl⟩

theorem storeAnswer_ok {d : Param} {a : Answer} {s t : State} :
    storeAnswer d a s = .ok t ↔
      ∃ v c, a = .message (.data v) ∧ effAddr s.rb d = some c ∧ s.inBounds c ∧
        t = { s with mem := s.mem.write c.toNat v, ip := s.ip + 2#64, phase := .ready } := by
  cases a with
  | closed => simp [storeAnswer]
  | message m =>
    cases m with
    | shutdown => simp [storeAnswer]
    | requestInput => simp [storeAnswer]
    | data v =>
      simp only [storeAnswer, bind_ok, writeDst_ok, pure, Except.pure, Except.ok.injEq]
      constructor
      · rintro ⟨u, ⟨c, hc, hb, rfl⟩, rfl⟩
        exact ⟨v, c, rfl, hc, hb, rfl⟩
      · rintro ⟨w, c, hw, hc, hb, rfl⟩
        cases hw
        exact ⟨_, ⟨c, hc, hb, rfl⟩, rfl⟩

/-- Reading a source looks at the parameter, the memory and `rb` only. -/
theorem resolveSrc_congr (p : Param) {s t : State} (hc : t.config = s.config) (hm : t.mem = s.mem) (hr : t.rb = s.rb) :
    resolveSrc p t = resolveSrc p s := by
  cases p <;> simp only [resolveSrc, memRead, State.inBounds, hc, hm, hr]

/-- Decoding looks at the memory and `ip` only. -/
theorem fetch_congr {s t : State} (hc : t.config = s.config) (hm : t.mem = s.mem) (hi : t.ip = s.ip) :
    fetch t = fetch s := by
  simp only [fetch, memRead, State.inBounds, hc, hm, hi]

end Sys2Proof.Machine
end

