-- ==== Sys2Proof/Laws/PerInstr.lean ====
section
/-! SUPPORT. Facts about every instruction as syntax, one lemma per constructor. -/

namespace Sys2Proof.Laws.EncodingShape

/-- An instruction has as many parameters as its opcode's arity, it encodes to its length in words, 1 to 4 of them, and its
instruction word is not negative and has its opcode as its two low digits (spec/30_encoding.md R300 to R302). -/
def Statement (i : Instr) : Prop :=
  i.params.length = i.opcode.arity ∧ (encode i).length = i.length ∧ 1 ≤ i.length ∧ i.length ≤ 4 ∧
    0 ≤ i.head.encode.toInt ∧ i.head.encode.toNat % 100 = i.opcode.code

/-- The part of the statement about the instruction word holds of any. -/
theorem head_word (h : Head) : 0 ≤ h.encode.toInt ∧ h.encode.toNat % 100 = h.opcode.code := by
  have h1 := h.modeDigit_lt 1
  have h2 := h.modeDigit_lt 2
  have h3 := h.modeDigit_lt 3
  have h4 := h.opcode.code_lt
  have he := h.encode_toNat
  refine ⟨?_, by omega⟩
  rw [BitVec.toInt_eq_toNat_cond, if_pos (by omega)]
  omega

/-- The part about the length holds of any opcode. -/
theorem length_bounds (i : Instr) : 1 ≤ i.length ∧ i.length ≤ 4 := by
  unfold Instr.length
  cases i.opcode <;> decide

theorem add (a b d : Param) : Statement (.add a b d) := ⟨rfl, rfl, (length_bounds _).1, (length_bounds _).2, head_word (Instr.add a b d).head⟩
theorem mul (a b d : Param) : Statement (.mul a b d) := ⟨rfl, rfl, (length_bounds _).1, (length_bounds _).2, head_word (Instr.mul a b d).head⟩
theorem inp (d : Param) : Statement (.inp d) := ⟨rfl, rfl, (length_bounds _).1, (length_bounds _).2, head_word (Instr.inp d).head⟩
theorem out (p : Param) : Statement (.out p) := ⟨rfl, rfl, (length_bounds _).1, (length_bounds _).2, head_word (Instr.out p).head⟩
theorem jt (c t : Param) : Statement (.jt c t) := ⟨rfl, rfl, (length_bounds _).1, (length_bounds _).2, head_word (Instr.jt c t).head⟩
theorem jf (c t : Param) : Statement (.jf c t) := ⟨rfl, rfl, (length_bounds _).1, (length_bounds _).2, head_word (Instr.jf c t).head⟩
theorem lt (a b d : Param) : Statement (.lt a b d) := ⟨rfl, rfl, (length_bounds _).1, (length_bounds _).2, head_word (Instr.lt a b d).head⟩
theorem eq (a b d : Param) : Statement (.eq a b d) := ⟨rfl, rfl, (length_bounds _).1, (length_bounds _).2, head_word (Instr.eq a b d).head⟩
theorem arb (p : Param) : Statement (.arb p) := ⟨rfl, rfl, (length_bounds _).1, (length_bounds _).2, head_word (Instr.arb p).head⟩
theorem hlt : Statement .hlt := ⟨rfl, rfl, (length_bounds _).1, (length_bounds _).2, head_word Instr.hlt.head⟩

end Sys2Proof.Laws.EncodingShape
end

