-- ==== Sys2Proof/Laws/Step.lean ====
section
/-! SUPPORT. What an instruction and a step can do, said once. -/

namespace Sys2Proof.Machine

/-- Every instruction answers a next state, in every state. -/
theorem exec_next (i : Instr) (s : State) : ∃ t, exec i s = .next t := by
  cases i <;> exact ⟨_, rfl⟩

/-- What one instruction can do: fault with nothing changed but the phase, store one word and go on, jump, adjust `rb`, or
offer a message. -/
theorem exec_cases {i : Instr} {s t : State} (h : exec i s = .next t) :
    (∃ d, t = s.raise d) ∨
    (∃ d v c, i.dst? = some d ∧ i.opcode ≠ .inp ∧ effAddr s.rb d = some c ∧ s.inBounds c ∧
      t = { s with mem := s.mem.write c.toNat v, ip := s.ip + 4#64 }) ∨
    (∃ c g y, (i = .jt c g ∨ i = .jf c g) ∧ resolveSrc g s = .ok y ∧ (t = s.jump y ∨ t = s.advance 3)) ∨
    (∃ p v, i = .arb p ∧ resolveSrc p s = .ok v ∧ InWord (s.rb.toInt + v.toInt) ∧
      t = (s.setRb (Word.ofInt (s.rb.toInt + v.toInt))).advance 2) ∨
    (∃ d, i = .inp d ∧ t = s.setPhase (.offerReq d)) ∨
    (∃ p v, i = .out p ∧ resolveSrc p s = .ok v ∧ t = s.setPhase (.offerOut v)) ∨
    (i = .hlt ∧ t = s.setPhase .offerShutdown) := by
  have store : ∀ {f : Word → Word → Except FaultDetail Word} {a b d : Param}, s.settle (alu f a b d s) = t →
      (∃ d, t = s.raise d) ∨ ∃ v c, effAddr s.rb d = some c ∧ s.inBounds c ∧
        t = { s with mem := s.mem.write c.toNat v, ip := s.ip + 4#64 } := by
    intro f a b d h
    rcases s.settle_cases (alu f a b d s) with ⟨u, hu, hs⟩ | ⟨e, -, hs⟩
    · obtain ⟨x, y, r, c, -, -, -, hc, hb, rfl⟩ := alu_ok.mp hu
      exact .inr ⟨r, c, hc, hb, by rw [← h, hs]⟩
    · exact .inl ⟨e, by rw [← h, hs]⟩
  have jump : ∀ {p : Word → Bool} {c g : Param}, s.settle (condJump p c g s) = t →
      (∃ d, t = s.raise d) ∨ ∃ y, resolveSrc g s = .ok y ∧ (t = s.jump y ∨ t = s.advance 3) := by
    intro p c g h
    rcases s.settle_cases (condJump p c g s) with ⟨u, hu, hs⟩ | ⟨e, -, hs⟩
    · obtain ⟨x, y, -, hy, rfl⟩ := condJump_ok.mp hu
      refine .inr ⟨y, hy, ?_⟩
      rw [← h, hs]
      cases p x <;> simp
    · exact .inl ⟨e, by rw [← h, hs]⟩
  cases i with
  | add a b d =>
    rcases store (Host.Outcome.next.inj h) with h | ⟨v, c, hc, hb, rfl⟩
    · exact .inl h
    · exact .inr (.inl ⟨d, v, c, rfl, by simp [Instr.opcode], hc, hb, rfl⟩)
  | mul a b d =>
    rcases store (Host.Outcome.next.inj h) with h | ⟨v, c, hc, hb, rfl⟩
    · exact .inl h
    · exact .inr (.inl ⟨d, v, c, rfl, by simp [Instr.opcode], hc, hb, rfl⟩)
  | lt a b d =>
    rcases store (Host.Outcome.next.inj h) with h | ⟨v, c, hc, hb, rfl⟩
    · exact .inl h
    · exact .inr (.inl ⟨d, v, c, rfl, by simp [Instr.opcode], hc, hb, rfl⟩)
  | eq a b d =>
    rcases store (Host.Outcome.next.inj h) with h | ⟨v, c, hc, hb, rfl⟩
    · exact .inl h
    · exact .inr (.inl ⟨d, v, c, rfl, by simp [Instr.opcode], hc, hb, rfl⟩)
  | jt c g =>
    rcases jump (Host.Outcome.next.inj h) with h | ⟨y, hy, ht⟩
    · exact .inl h
    · exact .inr (.inr (.inl ⟨c, g, y, .inl rfl, hy, ht⟩))
  | jf c g =>
    rcases jump (Host.Outcome.next.inj h) with h | ⟨y, hy, ht⟩
    · exact .inl h
    · exact .inr (.inr (.inl ⟨c, g, y, .inr rfl, hy, ht⟩))
  | inp d => exact .inr (.inr (.inr (.inr (.inl ⟨d, rfl, (Host.Outcome.next.inj h).symm⟩))))
  | hlt => exact .inr (.inr (.inr (.inr (.inr (.inr ⟨rfl, (Host.Outcome.next.inj h).symm⟩)))))
  | out p =>
    have h := Host.Outcome.next.inj h
    cases hv : resolveSrc p s with
    | error e => exact .inl ⟨e, by rw [← h, hv]; rfl⟩
    | ok v => exact .inr (.inr (.inr (.inr (.inr (.inl ⟨p, v, rfl, hv, by rw [← h, hv]; rfl⟩)))))
  | arb p =>
    have h := Host.Outcome.next.inj h
    cases hv : resolveSrc p s with
    | error e => exact .inl ⟨e, by rw [← h, hv]; rfl⟩
    | ok v =>
      cases hb : fArb s.rb v with
      | error e => exact .inl ⟨e, by rw [← h, hv]; simp only [bind, Except.bind, hb, State.settle]⟩
      | ok b =>
        obtain ⟨hw, rfl⟩ := narrow_ok.mp hb
        exact .inr (.inr (.inr (.inl ⟨p, v, rfl, hv, hw, by
          rw [← h, hv]; simp only [bind, Except.bind, hb, pure, Except.pure, State.settle]⟩)))

theorem step_ready {s : State} (h : s.phase = .ready) : step s = tauStep s := by
  unfold step
  rw [h]

/-- One step of a run, for any machine. -/
theorem core_run_succ (M : Host.Core) {s t : M.State} (k : Nat) (h : M.step s = .next t) : M.run (k + 1) s = M.run k t := by
  simp only [Host.Core.run, h]

/-- A run of one step is the step, for any machine. -/
theorem core_run_one (M : Host.Core) (s : M.State) : M.run 1 s = M.step s := by
  simp only [Host.Core.run]
  cases M.step s <;> rfl

/-- One step of a run. -/
theorem steps_succ {s t : State} (k : Nat) (h : step s = .next t) : steps (k + 1) s = steps k t :=
  core_run_succ Sys2Proof.core k h

theorem steps_zero (s : State) : steps 0 s = .next s := rfl

/-- A run of one step is the step. -/
theorem steps_one (s : State) : steps 1 s = step s := core_run_one Sys2Proof.core s

/-- A fault raised in a state, as a record. -/
theorem raise_eq (s : State) (d : FaultDetail) :
    s.raise d = { s with phase := .faulted ⟨s.ip, s.fetchedWord, d⟩ } := rfl

theorem fetchedWord_of_inBounds {s : State} (h : s.inBounds s.ip.toInt) :
    s.fetchedWord = some (s.mem.read s.ip.toInt.toNat) := if_pos h

/-- Decoding an instruction word that could be fetched. -/
theorem fetch_of_inBounds {s : State} {w : Word} (hb : s.inBounds s.ip.toInt) (hw : s.mem.read s.ip.toInt.toNat = w) :
    fetch s = match decodeHead w with
      | .error m => .error (.malformedInstruction m)
      | .ok h => h.build fun k => memRead (s.ip.toInt + k) .operand s := by
  have : memRead s.ip.toInt .fetch s = .ok w := memRead_ok.mpr ⟨hb, hw⟩
  simp only [fetch, this] <;> rfl

/-- The `recv` step of an IN whose destination can be written. -/
theorem receive_data {s : State} {d : Param} {c : Int} (v : Word) (hc : effAddr s.rb d = some c) (hb : s.inBounds c) :
    s.receive d (.message (.data v)) =
      { s with mem := s.mem.write c.toNat v, ip := s.ip + 2#64, phase := .ready,
               trace := s.trace ++ [.recv (.message (.data v))] } := by
  have : storeAnswer d (.message (.data v)) (s.logPort (.recv (.message (.data v)))) = .ok
      { s with mem := s.mem.write c.toNat v, ip := s.ip + 2#64, phase := .ready,
               trace := s.trace ++ [.recv (.message (.data v))] } :=
    storeAnswer_ok.mpr ⟨v, c, rfl, hc, hb, rfl⟩
  rw [State.receive, this, State.settle_ok]

/-- The `recv` step of an IN that faults with `e`, which `storeAnswer` finds. -/
theorem receive_fault {s : State} {d : Param} {a : Answer} {e : FaultDetail}
    (h : storeAnswer d a (s.logPort (.recv a)) = .error e) :
    s.receive d a = { s with trace := s.trace ++ [.recv a], phase := .faulted ⟨s.ip, s.fetchedWord, e⟩ } := by
  rw [State.receive, h, State.settle_error]
  rfl

/-- An IN with an Immediate destination, or one outside memory, faults when the data comes. -/
theorem storeAnswer_data_error {s : State} {d : Param} {v : Word} :
    (effAddr s.rb d = none → storeAnswer d (.message (.data v)) s = .error (.invalidWriteTarget 1)) ∧
    ∀ c, effAddr s.rb d = some c → ¬ s.inBounds c →
      storeAnswer d (.message (.data v)) s = .error (.outOfBoundsAccess c .write) := by
  refine ⟨fun h => ?_, fun c hc hb => ?_⟩
  · simp only [storeAnswer, writeDst, h, bind, Except.bind]
  · have := memWrite_error (v := v).mpr ⟨hb, rfl⟩
    simp only [storeAnswer, writeDst, hc, bind, Except.bind, this]

/-- What the `recv` step of an IN can do: store the data and go on, or fault; the answer is recorded either way. -/
theorem receive_cases (d : Param) (a : Answer) (s : State) :
    (∃ v c, a = .message (.data v) ∧ effAddr s.rb d = some c ∧ s.inBounds c ∧
      s.receive d a = { s.logPort (.recv a) with mem := s.mem.write c.toNat v, ip := s.ip + 2#64, phase := .ready }) ∨
    ∃ e, s.receive d a = (s.logPort (.recv a)).raise e := by
  rcases (s.logPort (.recv a)).settle_cases (storeAnswer d a (s.logPort (.recv a))) with ⟨u, hu, hs⟩ | ⟨e, -, hs⟩
  · obtain ⟨v, c, ha, hc, hb, rfl⟩ := storeAnswer_ok.mp hu
    exact .inl ⟨v, c, ha, hc, hb, hs⟩
  · exact .inr ⟨e, hs⟩

/-- What one step can do: run the instruction at `ip` or raise its decoding fault, have an offer accepted, or take an answer. -/
theorem step_cases {s t : State} (h : step s = .next t) :
    (s.phase = .ready ∧ ∃ i, fetch s = .ok i ∧ exec i s = .next t) ∨
    (s.phase = .ready ∧ ∃ d, fetch s = .error d ∧ t = s.raise d) ∨
    (∃ m k, s.phase.offer? = some m ∧ s.accepts = k + 1 ∧ t = State.accept m { s with accepts := k }) ∨
    (∃ d a as, s.phase = .awaitIn d ∧ s.answers = a :: as ∧ t = State.receive d a { s with answers := as }) := by
  have offer : ∀ m, s.phase.offer? = some m → offerStep m s = .next t →
      ∃ m k, s.phase.offer? = some m ∧ s.accepts = k + 1 ∧ t = State.accept m { s with accepts := k } := by
    intro m hm h
    unfold offerStep at h
    split at h
    · cases h
    · rename_i k hk
      exact ⟨m, k, hm, hk, (Host.Outcome.next.inj h).symm⟩
  unfold step at h
  split at h
  · rename_i hp
    unfold tauStep at h
    split at h
    · rename_i i hi
      exact .inl ⟨hp, i, hi, h⟩
    · rename_i d hd
      exact .inr (.inl ⟨hp, d, hd, (Host.Outcome.next.inj h).symm⟩)
  · rename_i v hp
    exact .inr (.inr (.inl (offer _ (by rw [hp]; rfl) h)))
  · rename_i d hp
    exact .inr (.inr (.inl (offer _ (by rw [hp]; rfl) h)))
  · rename_i hp
    exact .inr (.inr (.inl (offer _ (by rw [hp]; rfl) h)))
  · rename_i d hp
    unfold awaitStep at h
    split at h
    · cases h
    · rename_i a as ha
      exact .inr (.inr (.inr ⟨d, a, as, hp, ha, (Host.Outcome.next.inj h).symm⟩))
  · cases h
  · cases h

/-- What holds at the start and is kept by every step holds wherever a run gets to. -/
theorem Reaches.keeps {Inv : State → Prop} (hk : ∀ s t, Inv s → step s = .next t → Inv t) {s t : State} (h : Reaches s t)
    (hs : Inv s) : Inv t := by
  induction h with
  | start => exact hs
  | next _ hu ih => exact hk _ _ ih hu

end Sys2Proof.Machine
end

