-- ==== Sys2Proof/Tests/Slice0.lean ====
section
/-! SUPPORT. The model's own tests. Expected results are those of spec/95_test_vectors.md (the vector is named) or are read from
the encoding tables of spec/30_encoding.md. The second half shows, for every statement that has hypotheses, states and operands
that meet them all. -/

namespace Sys2Proof.Tests

open Sys2Proof.Machine

/-- A machine of 64 words, the size of the vectors of spec/95_test_vectors.md. -/
def small : Config := ⟨64, by decide, by decide⟩

/-- A machine of `n + 1` words for the vectors that name a small size. -/
def sized (n : Nat) (h : n + 1 ≤ 4611686018427387904) : Config := ⟨n + 1, by omega, h⟩

/-- Reset with a program, in an environment that accepts one offer and gives no answer. -/
def st (prog : List Word) : State := State.start small prog 1 []

/-- `st` with another relative base. -/
def stRb (prog : List Word) (rb : Word) : State := { st prog with rb := rb }

/-- `st` in a given phase, with given answers to come. -/
def stPhase (prog : List Word) (p : Phase) (as : List Answer) : State := { st prog with phase := p, answers := as }

/-- The state after one step, if there is one. -/
def after (s : State) : Option State :=
  match step s with
  | .next t => some t
  | .fault _ => none
  | .refused _ => none

/-- The phase after one step. -/
def phaseAfter (s : State) : Option Phase := (after s).map State.phase

/-- The instruction at `ip`, every word of it, from a finite check. -/
theorem holdsAtIp_of_words {s : State} {i : Instr}
    (h : ∀ p ∈ (encode i).zipIdx, s.inBounds (s.ip.toInt + p.2) ∧ s.mem.read (s.ip.toInt + p.2).toNat = p.1) :
    s.holdsAtIp i := fun k w hk =>
  h (w, k) (by rw [List.mem_zipIdx_iff_getElem?]; simpa using hk)

/-! Well-formedness: each check refuses an ill-formed term (spec/20_memory.md R221). -/

theorem test_wf_refuses_add : (Instr.add (.pos 0) (.pos 0) (.imm 0)).wellFormed = false := by decide
theorem test_wf_refuses_mul : (Instr.mul (.imm 1) (.rel 2) (.imm 3)).wellFormed = false := by decide
theorem test_wf_refuses_inp : (Instr.inp (.imm 0)).wellFormed = false := by decide
theorem test_wf_refuses_lt : (Instr.lt (.pos 0) (.pos 0) (.imm 0)).wellFormed = false := by decide
theorem test_wf_refuses_eq : (Instr.eq (.pos 0) (.pos 0) (.imm 0)).wellFormed = false := by decide
theorem test_wf_allows : (Instr.add (.imm 1) (.imm 2) (.rel 3)).wellFormed = true ∧ (Instr.out (.imm 1)).wellFormed = true ∧
    (Instr.jt (.imm 1) (.imm 0)).wellFormed = true ∧ Instr.hlt.wellFormed = true := by decide

/-! Decoding: words written out from the patterns of spec/30_encoding.md R306 and spec/opcode_table.json. -/

theorem test_decode_add : decode [21101, 4, 5, -3] = .ok (.add (.imm 4) (.imm 5) (.rel (-3)), []) := by rfl
/-- W3, the source's own decode example. -/
theorem test_decode_mul : decode [1002, 4, 3, 4, 33] = .ok (.mul (.pos 4) (.imm 3) (.pos 4), [33]) := by rfl
theorem test_decode_inp : decode [203, -1] = .ok (.inp (.rel (-1)), []) := by rfl
theorem test_decode_out : decode [104, 7, 99] = .ok (.out (.imm 7), [99]) := by rfl
theorem test_decode_jt : decode [2105, 1, 3] = .ok (.jt (.imm 1) (.rel 3), []) := by rfl
theorem test_decode_jf : decode [1206, -2, 9] = .ok (.jf (.rel (-2)) (.imm 9), []) := by rfl
theorem test_decode_lt : decode [1107, 3, 5, 6] = .ok (.lt (.imm 3) (.imm 5) (.pos 6), []) := by rfl
theorem test_decode_eq : decode [22208, -5, -5, -3] = .ok (.eq (.rel (-5)) (.rel (-5)) (.rel (-3)), []) := by rfl
theorem test_decode_arb : decode [209, 0] = .ok (.arb (.rel 0), []) := by rfl
theorem test_decode_hlt : decode [99, 5] = .ok (.hlt, [5]) := by rfl
/-- R307: an Immediate destination decodes. -/
theorem test_decode_dagger : decode [11101, 1, 1, 0] = .ok (.add (.imm 1) (.imm 1) (.imm 0), []) := by rfl
/-- V-DEC-1 to V-DEC-6. -/
theorem test_decode_bad_opcode : decodeHead 0 = .error (.badOpcode 0) ∧ decodeHead 98 = .error (.badOpcode 98) ∧
    decodeHead 100 = .error (.badOpcode 0) ∧ decodeHead (-1) = .error .negativeWord ∧
    decodeHead (-99) = .error .negativeWord := ⟨rfl, rfl, rfl, rfl, rfl⟩
/-- V-DEC-7 to V-DEC-11. -/
theorem test_decode_bad_mode : decodeHead 301 = .error (.badMode 1 3) ∧ decodeHead 1301 = .error (.badMode 1 3) ∧
    decodeHead 3001 = .error (.badMode 2 3) ∧ decodeHead 30001 = .error (.badMode 3 3) ∧
    decodeHead 901 = .error (.badMode 1 9) := ⟨rfl, rfl, rfl, rfl, rfl⟩
/-- V-DEC-12 to V-DEC-15 and V-HLT-2. -/
theorem test_decode_excess : decodeHead 100001 = .error .excessDigits ∧ decodeHead 10004 = .error .excessDigits ∧
    decodeHead 1009 = .error .excessDigits ∧ decodeHead 2209 = .error .excessDigits ∧
    decodeHead 199 = .error .excessDigits := ⟨rfl, rfl, rfl, rfl, rfl⟩
theorem test_decode_truncated : decode [1101, 1, 1] = .error (.truncated 3) := by rfl
/-- R322's example. -/
theorem test_encode_mul : encode (.mul (.pos 4) (.imm 3) (.pos 4)) = [1002, 4, 3, 4] := by decide
/-- The table's number for a row, its operand words zero, decodes and runs first after reset (log 12). -/
theorem test_table_word : decodeTableWord 64 4 = some (.out (.pos 0)) ∧ decodeTableWord 64 21101 = some (.add (.imm 0) (.imm 0) (.rel 0)) ∧
    decodeTableWord 64 100 = none := ⟨rfl, rfl, rfl⟩
theorem test_fetch_word : phaseAfter (State.reset.withFetchWord 64 99) = some .offerShutdown := by decide

/-! One step of each instruction. -/

/-- V-ADD-4. -/
theorem test_add_overflow : phaseAfter (st [1101, 9223372036854775807, 1, 5, 99, 0]) =
    some (.faulted ⟨0, some 1101, .arithmeticOverflow .add 9223372036854775808⟩) := by decide
/-- V-ADD-7: a Relative destination. -/
theorem test_add_relative : (after (stRb [21101, 4, 5, -3, 99] 10)).map (fun t => (t.mem.read 7, t.ip, t.rb)) =
    some (9, 4, 10) := by decide
/-- V-MUL-3. -/
theorem test_mul_min : (after (st [1102, -4294967296, 2147483648, 5, 99])).map (fun t => (t.mem.read 5, t.ip)) =
    some (-9223372036854775808, 4) := by decide
/-- V-MUL-5. -/
theorem test_mul_overflow : phaseAfter (st [1102, -1, -9223372036854775808, 5, 99]) =
    some (.faulted ⟨0, some 1102, .arithmeticOverflow .mul 9223372036854775808⟩) := by decide
/-- V-LT-3. -/
theorem test_lt_signed : (after (st [1107, -1, 0, 5, 99])).map (fun t => t.mem.read 5) = some 1 := by decide
/-- V-LT-2: equal operands give 0, over the old 7. -/
theorem test_lt_equal : (after (st [1107, 5, 5, 5, 99, 7])).map (fun t => (t.mem.read 5, t.ip)) = some (0, 4) := by decide
/-- V-EQ-4: an instruction that overwrites its own word. -/
theorem test_eq_own_word : (after (st [8, 0, 0, 0, 99])).map (fun t => (t.mem.read 0, t.ip)) = some (1, 4) := by decide
/-- V-EQ-2. -/
theorem test_eq_unequal : (after (st [1108, 8, 7, 5, 99, 9])).map (fun t => t.mem.read 5) = some 0 := by decide
/-- V-IN-2: the answer is stored at `rb + r`. -/
theorem test_in_relative :
    (after { stPhase [203, -1, 99] (.awaitIn (.rel (-1))) [.message (.data (-5))] with rb := 5 }).map
      (fun t => (t.mem.read 4, t.ip, t.phase)) = some (-5, 2, .ready) := by decide
/-- V-IN-3: an Immediate destination faults after the receive. -/
theorem test_in_immediate : (after (stPhase [103, 0, 99] (.awaitIn (.imm 0)) [.message (.data 9)])).map
      (fun t => (t.phase, t.trace)) =
    some (.faulted ⟨0, some 103, .invalidWriteTarget 1⟩, [.recv (.message (.data 9))]) := by decide
/-- V-OUT-3: Relative. -/
theorem test_out_relative : phaseAfter (stRb [204, -1, 99] 3) = some (.offerOut 99) := by decide
/-- V-OUT-6: a negative Relative address. -/
theorem test_out_negative : phaseAfter (stRb [204, 0, 99] (-1)) =
    some (.faulted ⟨0, some 204, .outOfBoundsAccess (-1) .read⟩) := by decide
/-- V-JT-3: a negative condition holds. -/
theorem test_jt_taken : (after (st [1105, -1, 4, 99, 99])).map State.ip = some 4 := by decide
/-- V-JT-9: the condition is read, then the target faults. -/
theorem test_jt_target_fault : phaseAfter (st [2005, 4, -1, 99, 1]) =
    some (.faulted ⟨0, some 2005, .outOfBoundsAccess (-1) .read⟩) := by decide
/-- V-JF-2: not taken. -/
theorem test_jf_not_taken : (after (st [1106, 3, 4, 99, 99])).map State.ip = some 3 := by decide
/-- V-JF-3: the target is resolved though the jump is not taken. -/
theorem test_jf_target_fault : phaseAfter (st [6, 3, 99999999999, 1]) =
    some (.faulted ⟨0, some 6, .outOfBoundsAccess 99999999999 .read⟩) := by decide
/-- V-ARB-3: a Relative source is read with the old `rb`. -/
theorem test_arb_relative : (after (st [209, 0, 99])).map (fun t => (t.rb, t.ip)) = some (209, 2) := by decide
/-- V-ARB-5. -/
theorem test_arb_overflow : (after (stRb [109, 1, 99] 9223372036854775807)).map (fun t => (t.phase, t.rb)) =
    some (.faulted ⟨0, some 109, .arithmeticOverflow .arb 9223372036854775808⟩, 9223372036854775807) := by decide
/-- V-ARB-11's second step: the relative sum is exact, it does not wrap (D4). -/
theorem test_relative_exact : phaseAfter { stRb [109, 9223372036854775807, 204, 1, 99] 9223372036854775807 with ip := 2 } =
    some (.faulted ⟨2, some 204, .outOfBoundsAccess 9223372036854775808 .read⟩) := by decide
/-- V-HLT-1. -/
theorem test_hlt_ends : (after (stPhase [99] .offerShutdown [])).map (fun t => (t.phase, t.ip, t.trace)) =
    some (.halted, 0, [.send .shutdown]) := by decide
/-- V-HLT-5: without an acceptance the core is stuck. -/
theorem test_hlt_stuck : (stPhase [99] .offerShutdown []).observe = none ∧
    ({ stPhase [99] .offerShutdown [] with accepts := 0 } : State).stuck := ⟨rfl, rfl⟩
/-- V-DEC-17: an operand word past the top of memory. -/
theorem test_operand_past_top : phaseAfter (State.start (sized 2 (by decide)) [1101, 1, 1] 0 []) =
    some (.faulted ⟨0, some 1101, .outOfBoundsAccess 3 .operand⟩) := by decide
/-- V-DEC-18's second step: running off the top does not wrap. -/
theorem test_fetch_past_top : phaseAfter { State.start (sized 1 (by decide)) [109, 1] 0 [] with ip := 2 } =
    some (.faulted ⟨2, none, .outOfBoundsAccess 2 .fetch⟩) := by decide
/-- V-ADD-13: the overflow is found before the Immediate destination. -/
theorem test_overflow_before_write : phaseAfter (st [11101, 9223372036854775807, 1, 0, 99]) =
    some (.faulted ⟨0, some 11101, .arithmeticOverflow .add 9223372036854775808⟩) := by decide

/-! Loading and assembling. -/

theorem test_reset_memory : State.reset.mem.wf ∧ State.reset.mem = [] := by decide
theorem test_load_text : loadText small " 3,0,4,0,-99\n".toList = .ok [3, 0, 4, 0, -99] := by rfl
/-- R703, its three refusals. -/
theorem test_load_refusals : loadText small "1,,2".toList = .error .badText ∧ loadText small "".toList = .error .badText ∧
    loadText small "9223372036854775808".toList = .error .outOfRange ∧
    loadText (sized 0 (by decide)) "1,99".toList = .error .tooLong := ⟨rfl, rfl, rfl, rfl⟩
/-- P4's listing. -/
theorem test_assemble : assembleText " OUT  #7 ; 0\n ADD  #1, #1, #0\n HLT".toList = some [104, 7, 11101, 1, 1, 0, 99] := by decide
/-- R323, R324: labels, data and pseudo-instructions, with the words of P1. -/
theorem test_assemble_labels : assembleText "loop: JMP #loop\nNOP\nMOV [s+1], [rb-2]\ns: .word 5, -1".toList =
    some [1105, 1, 0, 1106, 1, 0, 21001, 11, 0, -2, 5, -1] := by decide
theorem test_assemble_refuses : assembleText "ADD #1, #2".toList = none ∧ assembleText "OUT [nowhere]".toList = none ∧
    assembleText "a: HLT\na: HLT".toList = none := by decide

/-! Witnesses: for every statement that has hypotheses, states and operands that meet all of them together, one for each clause. -/

theorem witness_FirstStepRunsAddressZero : ∃ (prog rest : List Word) (i : Instr),
    prog.length ≤ small.arenaSize ∧ decode prog = .ok (i, rest) :=
  ⟨[1, 0, 0, 0, 99], [99], .add (.pos 0) (.pos 0) (.pos 0), by decide, rfl⟩

/-- Both sides of the equivalence occur, and the texts D19 names are refused. -/
theorem witness_ProgramTextReadsItsIntegers :
    (∃ (cs pre post : List Char) (items : List TextItem) (vs : List Int), cs = pre ++ itemsChars items ++ post ∧
      (∀ c ∈ pre, c.isWhitespace = true) ∧ (∀ c ∈ post, c.isWhitespace = true) ∧
      items ≠ [] ∧ (∀ t ∈ items, t.digits ≠ []) ∧ vs = items.map TextItem.value ∧ programText? cs = some vs) ∧
    programText? [' '] = none ∧ programText? ['1', ','] = none ∧ programText? ['+', '1'] = none ∧
    programText? ['-'] = none ∧ programText? ['1', ',', ' ', '2'] = none :=
  ⟨⟨" 10,-9\n".toList, [' '], ['\n'], [⟨false, [1, 0]⟩, ⟨true, [9]⟩], [10, -9], by decide, by simp, by simp, by decide,
    by decide, by decide, by decide⟩, by decide, by decide, by decide, by decide, by decide⟩

/-- Both sides of the equivalence occur: a program that just fits is loaded, one more word is refused. -/
theorem witness_LoadAcceptsExactlyFittingPrograms : loadText (sized 1 (by decide)) "104,-9223372036854775808".toList =
    .ok [104, -9223372036854775808] ∧ loadText (sized 1 (by decide)) "1,2,3".toList = .error .tooLong := ⟨rfl, rfl⟩

theorem witness_EncodeInvertsDecode : ∃ (ws rest : List Word) (i : Instr), decode ws = .ok (i, rest) :=
  ⟨[109, -1, 99], [99], .arb (.imm (-1)), rfl⟩

theorem witness_IllegalOpcodeFaults :
    let meets (w : Word) : Prop := (st [w]).phase = .ready ∧ (st [w]).inBounds (st [w]).ip.toInt ∧
      (st [w]).mem.read (st [w]).ip.toInt.toNat = w ∧ 0 ≤ w.toInt ∧
      (w.toNat % 100 = 0 ∨ (10 ≤ w.toNat % 100 ∧ w.toNat % 100 ≤ 98))
    meets 0 ∧ meets 10 ∧ meets 98 ∧ meets 100 ∧ meets 9223372036854775800 := by
  refine ⟨?_, ?_, ?_, ?_, ?_⟩ <;> exact ⟨rfl, by decide, rfl, by decide, by decide⟩

theorem witness_IllegalModeDigitFaults :
    let meets (w : Word) (op : Opcode) (k : Nat) : Prop := (st [w]).phase = .ready ∧ (st [w]).inBounds (st [w]).ip.toInt ∧
      (st [w]).mem.read (st [w]).ip.toInt.toNat = w ∧ 0 ≤ w.toInt ∧ w.toNat % 100 = op.code ∧ 1 ≤ k ∧ k ≤ op.arity ∧
      3 ≤ digit w.toNat (k + 1) ∧ ∀ j < k, 1 ≤ j → digit w.toNat (j + 1) < 3
    meets 301 .add 1 ∧ meets 3007 .lt 2 ∧ meets 90001 .add 3 ∧ meets 904 .out 1 := by
  refine ⟨?_, ?_, ?_, ?_⟩ <;>
    exact ⟨rfl, by decide, rfl, by decide, rfl, by decide, by decide, by decide, by decide⟩

theorem witness_NegativeAndExcessWordsFault :
    let stands (w : Word) : Prop := (st [w]).phase = .ready ∧ (st [w]).inBounds (st [w]).ip.toInt ∧
      (st [w]).mem.read (st [w]).ip.toInt.toNat = w
    let excess (w : Word) (op : Opcode) : Prop := stands w ∧ 0 ≤ w.toInt ∧ w.toNat % 100 = op.code ∧
      (∀ k ≤ op.arity, 1 ≤ k → digit w.toNat (k + 1) < 3) ∧ w.toNat / 10 ^ (op.arity + 2) ≠ 0
    (stands (-1) ∧ (-1 : Word).toInt < 0) ∧
      (stands (-9223372036854775808) ∧ (-9223372036854775808 : Word).toInt < 0) ∧
      excess 199 .hlt ∧ excess 10004 .out ∧ excess 100001 .add ∧ excess 1009 .arb := by
  refine ⟨⟨⟨rfl, by decide, rfl⟩, by decide⟩, ⟨⟨rfl, by decide, rfl⟩, by decide⟩, ?_, ?_, ?_, ?_⟩ <;>
    exact ⟨⟨rfl, by decide, rfl⟩, by decide, rfl, by decide, by decide⟩

theorem witness_StepRunsTheInstructionAtIp : ∃ (s : State) (i : Instr), s.phase = .ready ∧ s.holdsAtIp i :=
  ⟨{ st [99, 22201, 1, 2, -3] with ip := 1 }, .add (.rel 1) (.rel 2) (.rel (-3)), rfl, holdsAtIp_of_words (by decide)⟩

theorem witness_ReadyStepShape : (st [99]).phase = .ready := by decide

theorem witness_WaitingMovesOnlyOnItsEvent :
    ∀ p ∈ [Phase.offerOut 7, .offerReq (.pos 3), .awaitIn (.pos 3), .offerShutdown], (stPhase [4] p []).phase.waiting = true := by
  decide

theorem witness_EndedCoreHasNoStep : (stPhase [99] .halted []).phase = .halted ∧
    ∃ f, (stPhase [0] (.faulted ⟨0, some 0, .malformedInstruction (.badOpcode 0)⟩) []).phase = .faulted f :=
  ⟨rfl, _, rfl⟩

/-- A `τ`, a `send` and a `recv` step. -/
theorem witness_StepIsOneLabelledStep : (∃ t, step (st [99]) = .next t) ∧
    (∃ t, step (stPhase [4] (.offerOut 7) []) = .next t) ∧
    ∃ t, step (stPhase [3, 0] (.awaitIn (.pos 0)) [.closed]) = .next t := ⟨⟨_, rfl⟩, ⟨_, rfl⟩, _, rfl⟩

theorem witness_LabelledStepIsAStep : (∃ u, labelledStep .tau (st [99]) = some u) ∧
    (∃ u, labelledStep (.port (.send (.data 7))) (stPhase [4] (.offerOut 7) []) = some u) ∧
    ∃ u, labelledStep (.port (.recv .closed)) (stPhase [3, 0] (.awaitIn (.pos 0)) []) = some u :=
  ⟨⟨_, rfl⟩, ⟨_, rfl⟩, _, rfl⟩

theorem witness_ReadyStepIgnoresEnvironment : ∃ s t : State, s.phase = .ready ∧ step s = .next t := ⟨st [99], _, rfl, rfl⟩

/-- Both sides of the bound, at its ends, for Position and for Relative. -/
theorem witness_SourceResolution : ((st []).inBounds (0 : Word).toInt ∧ (st []).inBounds (63 : Word).toInt) ∧
    (¬ (st []).inBounds (-1 : Word).toInt ∧ ¬ (st []).inBounds (64 : Word).toInt) ∧
    (stRb [] (-5)).inBounds ((stRb [] (-5)).rb.toInt + (5 : Word).toInt) ∧
    ¬ (stRb [] 9223372036854775807).inBounds ((stRb [] 9223372036854775807).rb.toInt + (1 : Word).toInt) := by
  refine ⟨⟨?_, ?_⟩, ⟨?_, ?_⟩, ?_, ?_⟩ <;> decide

theorem witness_OutOfBoundsAccessesFault_fetch :
    let meets (a : Word) : Prop := ({ st [] with ip := a } : State).phase = .ready ∧
      ¬ ({ st [] with ip := a } : State).inBounds a.toInt
    meets (-1) ∧ meets 64 := by
  refine ⟨?_, ?_⟩ <;> exact ⟨rfl, by decide⟩

theorem witness_OutOfBoundsAccessesFault_operand : ∃ (s : State) (w : Word) (h : Head) (k : Nat), s.phase = .ready ∧
    s.inBounds s.ip.toInt ∧ s.mem.read s.ip.toInt.toNat = w ∧ decodeHead w = .ok h ∧ 1 ≤ k ∧ k ≤ h.opcode.arity ∧
    (∀ j < k, 1 ≤ j → s.inBounds (s.ip.toInt + j)) ∧ ¬ s.inBounds (s.ip.toInt + k) :=
  ⟨State.start (sized 2 (by decide)) [1101, 1, 1] 0 [], 1101, .add .immediate .immediate .position, 3, by decide, by decide,
    by decide, rfl, by decide, by decide, by decide, by decide⟩

/-- The second source alone is out of bounds. -/
theorem witness_OutOfBoundsAccessesFault_source : ∃ (s : State) (i : Instr) (p : Param) (c : Int), p ∈ i.sources ∧
    effAddr s.rb p = some c ∧ ¬ s.inBounds c :=
  ⟨st [], .jt (.imm 0) (.pos 64), .pos 64, 64, by decide, by decide, by decide⟩

theorem witness_OutOfBoundsAccessesFault_write : ∃ (s : State) (a b d : Param) (x y r : Word) (c : Int), ∃ e ∈ aluTable,
    resolveSrc a s = .ok x ∧ resolveSrc b s = .ok y ∧ e.2 x y = .ok r ∧ effAddr s.rb d = some c ∧ ¬ s.inBounds c :=
  ⟨st [], .imm 1, .imm 2, .pos 64, 1, 2, 3, 64, (Instr.add, fAdd), by simp [aluTable], rfl, rfl, rfl, rfl, by decide⟩

theorem witness_OutOfBoundsAccessesFault_input : ∃ (s : State) (d : Param) (v : Word) (as : List Answer) (c : Int),
    s.phase = .awaitIn d ∧ s.answers = .message (.data v) :: as ∧ effAddr s.rb d = some c ∧ ¬ s.inBounds c :=
  ⟨stPhase [3, -1] (.awaitIn (.pos (-1))) [.message (.data 5)], .pos (-1), 5, [], -1, rfl, rfl, rfl, by decide⟩

theorem witness_ImmediateDestinationFaults :
    (∃ (s : State) (a b : Param) (x y r : Word), ∃ e ∈ aluTable, resolveSrc a s = .ok x ∧ resolveSrc b s = .ok y ∧
      e.2 x y = .ok r) ∧
    ∃ (s : State) (v w : Word) (as : List Answer), s.phase = .awaitIn (.imm v) ∧ s.answers = .message (.data w) :: as :=
  ⟨⟨st [11107, 1, 2, 0], .imm 1, .imm 2, 1, 2, 1, (Instr.lt, fLt), by simp [aluTable], rfl, rfl, rfl⟩,
    stPhase [103, 0] (.awaitIn (.imm 0)) [.message (.data 9)], 0, 9, [], rfl, rfl⟩

theorem witness_RelativeBaseWritersAndReaders : (∃ s t : State, step s = .next t) ∧
    (∃ (s t : State) (i : Instr), i.opcode ≠ .arb ∧ (∀ p ∈ i.params, p.mode ≠ .relative) ∧ exec i s = .next t) ∧
    (∃ d : Param, d.mode ≠ .relative) ∧
    (∃ (s : State) (p : Param) (v : Word), resolveSrc p s = .ok v ∧ InWord (s.rb.toInt + v.toInt)) ∧
    ∃ (s : State) (r : Word), s.inBounds (s.rb.toInt + r.toInt) :=
  ⟨⟨st [109, 5], _, rfl⟩, ⟨st [1], _, .add (.pos 0) (.imm 1) (.pos 0), by decide, by decide, rfl⟩, ⟨.imm 0, by decide⟩,
    ⟨stRb [109, 1] 9223372036854775806, .imm 1, 1, rfl, by decide⟩, stRb [] 9223372036854775807, -9223372036854775807, by decide⟩

/-- A sum that is just a word, a source that is the destination, the last address. -/
theorem witness_AddStoresExactSum : ∃ (s : State) (a b d : Param) (x y : Word) (c : Int), s.mem.wf ∧
    resolveSrc a s = .ok x ∧ resolveSrc b s = .ok y ∧ InWord (x.toInt + y.toInt) ∧ effAddr s.rb d = some c ∧ s.inBounds c :=
  ⟨stRb [1, 9223372036854775806] 64, .pos 1, .imm 1, .rel (-1), 9223372036854775806, 1, 63, by decide, rfl, rfl, by decide, rfl,
    by decide⟩

theorem witness_MulStoresExactProduct : ∃ (s : State) (a b d : Param) (x y : Word) (c : Int), s.mem.wf ∧
    resolveSrc a s = .ok x ∧ resolveSrc b s = .ok y ∧ InWord (x.toInt * y.toInt) ∧ effAddr s.rb d = some c ∧ s.inBounds c :=
  ⟨st [102, -4294967296], .imm 2147483648, .pos 1, .pos 1, 2147483648, -4294967296, 1, by decide, rfl, rfl, by decide, rfl,
    by decide⟩

/-- LT and EQ share these hypotheses; both outcomes of each occur. -/
theorem witness_LtStoresSignedComparison : ∃ (s : State) (a b d : Param) (x y : Word) (c : Int), s.mem.wf ∧
    resolveSrc a s = .ok x ∧ resolveSrc b s = .ok y ∧ effAddr s.rb d = some c ∧ s.inBounds c ∧ x.toInt < y.toInt ∧
    ¬ y.toInt < x.toInt :=
  ⟨st [7], .imm (-9223372036854775808), .imm 9223372036854775807, .pos 0, -9223372036854775808, 9223372036854775807, 0,
    by decide, rfl, rfl, rfl, by decide, by decide, by decide⟩

theorem witness_EqStoresEqualityTest : ∃ (s : State) (a b d : Param) (x y z : Word) (c : Int), s.mem.wf ∧
    resolveSrc a s = .ok x ∧ resolveSrc b s = .ok y ∧ resolveSrc d s = .ok z ∧ effAddr s.rb d = some c ∧ s.inBounds c ∧
    x.toInt = y.toInt ∧ x.toInt ≠ z.toInt :=
  ⟨st [8], .imm 0, .pos 63, .pos 0, 0, 0, 8, 0, by decide, rfl, rfl, rfl, rfl, by decide, by decide, by decide⟩

/-- The first sums and products outside the word range, and ARB's. -/
theorem witness_ResultOutsideWordRangeFaults :
    (∃ (s : State) (a b d : Param) (x y : Word) (c : Int), resolveSrc a s = .ok x ∧ resolveSrc b s = .ok y ∧
      ¬ InWord (x.toInt + y.toInt) ∧ effAddr s.rb d = some c ∧ s.inBounds c) ∧
    (∃ (s : State) (a b d : Param) (x y : Word) (c : Int), resolveSrc a s = .ok x ∧ resolveSrc b s = .ok y ∧
      ¬ InWord (x.toInt * y.toInt) ∧ effAddr s.rb d = some c ∧ s.inBounds c) ∧
    ∃ (s : State) (p : Param) (v : Word), resolveSrc p s = .ok v ∧ ¬ InWord (s.rb.toInt + v.toInt) :=
  ⟨⟨st [1], .imm 9223372036854775807, .imm 1, .pos 0, 9223372036854775807, 1, 0, rfl, rfl, by decide, rfl, by decide⟩,
    ⟨st [2], .imm (-1), .imm (-9223372036854775808), .pos 0, -1, -9223372036854775808, 0, rfl, rfl, by decide, rfl, by decide⟩,
    stRb [9] (-9223372036854775808), .imm (-1), -1, rfl, by decide⟩

/-- JT and JF: both outcomes of the condition. -/
theorem witness_JumpIfTrueSetsIp : ∃ (s : State) (c c' g : Param) (x x' y : Word), resolveSrc c s = .ok x ∧
    resolveSrc c' s = .ok x' ∧ resolveSrc g s = .ok y ∧ x.toInt ≠ 0 ∧ x'.toInt = 0 :=
  ⟨st [5], .imm (-1), .pos 63, .pos 0, -1, 0, 5, rfl, rfl, rfl, by decide, by decide⟩

theorem witness_JumpIfFalseSetsIp : ∃ (s : State) (c c' g : Param) (x x' y : Word), resolveSrc c s = .ok x ∧
    resolveSrc c' s = .ok x' ∧ resolveSrc g s = .ok y ∧ x.toInt = 0 ∧ x'.toInt ≠ 0 :=
  ⟨st [6], .imm 0, .rel 0, .imm 64, 0, 6, 64, rfl, rfl, rfl, by decide, by decide⟩

theorem witness_BadTargetFaultsAtNextFetch :
    (∃ (s : State) (c g : Param) (x y : Word), s.phase = .ready ∧ s.holdsAtIp (.jt c g) ∧ x.toInt ≠ 0 ∧
      resolveSrc c s = .ok x ∧ resolveSrc g s = .ok y ∧ ¬ s.inBounds y.toInt) ∧
    ∃ (s : State) (c g : Param) (x y : Word), s.phase = .ready ∧ s.holdsAtIp (.jf c g) ∧ x.toInt = 0 ∧
      resolveSrc c s = .ok x ∧ resolveSrc g s = .ok y ∧ ¬ s.inBounds y.toInt :=
  ⟨⟨st [1105, 1, -1], .imm 1, .imm (-1), 1, -1, rfl, holdsAtIp_of_words (by decide), by decide, rfl, rfl, by decide⟩,
    st [1106, 0, 64], .imm 0, .imm 64, 0, 64, rfl, holdsAtIp_of_words (by decide), by decide, rfl, rfl, by decide⟩

theorem witness_ArbAddsToRelativeBase : ∃ (s : State) (p : Param) (v : Word), resolveSrc p s = .ok v ∧
    InWord (s.rb.toInt + v.toInt) := ⟨stRb [209, 1] (-1), .rel 2, 1, rfl, by decide⟩

theorem witness_PortInstructionsEnterTheirWait : ∃ (s : State) (p : Param) (v : Word), resolveSrc p s = .ok v :=
  ⟨st [4], .pos 0, 4, rfl⟩

theorem witness_InputStoresTheAnswer : ∃ (s : State) (d : Param) (v : Word) (c : Int) (k : Nat) (as : List Answer),
    s.mem.wf ∧ s.phase = .ready ∧ s.holdsAtIp (.inp d) ∧ s.accepts = k + 1 ∧ s.answers = .message (.data v) :: as ∧
    effAddr s.rb d = some c ∧ s.inBounds c :=
  ⟨stPhase [3, 0] .ready [.message (.data 4)], .pos 0, 4, 0, 0, [], by decide, rfl, holdsAtIp_of_words (by decide), rfl, rfl,
    rfl, by decide⟩

/-- Each answer that is no data. -/
theorem witness_InputFaultsWithoutData : (∀ a ∈ [Answer.message .shutdown, .message .requestInput, .closed],
      (stPhase [3, 3] (.awaitIn (.pos 3)) [a]).phase = .awaitIn (.pos 3) ∧
      (stPhase [3, 3] (.awaitIn (.pos 3)) [a]).answers = [a]) ∧
    (∀ v, Message.shutdown ≠ .data v) ∧ ∀ v, Message.requestInput ≠ .data v := by
  refine ⟨by decide, by simp, by simp⟩

/-- An accepting environment and a silent one. -/
theorem witness_OutputSendsItsSource : ∃ (s : State) (p : Param) (v : Word), s.phase = .ready ∧ s.holdsAtIp (.out p) ∧
    resolveSrc p s = .ok v ∧ s.accepts = 0 + 1 ∧ ({ s with accepts := 0 } : State).holdsAtIp (.out p) :=
  ⟨st [4, 3, 99, 77], .pos 3, 77, rfl, holdsAtIp_of_words (by decide), rfl, rfl, holdsAtIp_of_words (by decide)⟩

/-- The premises of the run, a halted core and one that offers `Shutdown`. -/
theorem witness_HaltEndsTheRun : (∃ (s : State) (k : Nat), s.phase = .ready ∧ s.holdsAtIp .hlt ∧ s.accepts = k + 1) ∧
    (stPhase [99] .halted []).phase = .halted ∧ (stPhase [99] .offerShutdown []).phase ≠ .halted :=
  ⟨⟨st [99], 0, rfl, holdsAtIp_of_words (by decide), rfl⟩, rfl, by decide⟩

theorem witness_AluFrame : ∃ (s t : State) (a b d : Param), ∃ e ∈ aluTable, exec (e.1 a b d) s = .next t :=
  ⟨st [1], _, .pos 0, .imm 1, .pos 63, (Instr.add, fAdd), by simp [aluTable], rfl⟩

theorem witness_NonStoringFrame : ∀ i ∈ [Instr.inp (.pos 0), .out (.imm 7), .jt (.imm 1) (.imm 0), .jf (.imm 1) (.imm 0),
      .arb (.imm 1), .hlt],
    i.opcode ∈ [Opcode.inp, .out, .jt, .jf, .arb, .hlt] ∧ ∃ t, exec i (st []) = .next t := by
  intro i hi
  refine ⟨by revert i; decide, ?_⟩
  simp only [List.mem_cons, List.not_mem_nil, or_false] at hi
  rcases hi with rfl | rfl | rfl | rfl | rfl | rfl <;> exact ⟨_, rfl⟩

theorem witness_PortStepFrame : ∃ (s t : State) (d : Param) (c : Int), s.phase.waiting = true ∧ step s = .next t ∧
    s.phase = .awaitIn d ∧ effAddr s.rb d = some c :=
  ⟨stPhase [3, 0] (.awaitIn (.pos 0)) [.message (.data 5)], _, .pos 0, 0, rfl, rfl, rfl, rfl⟩

/-- A fixed-length instruction and a taken jump. -/
theorem witness_IpGoesPastTheInstruction : (∃ s t : State, s.inBounds s.ip.toInt ∧ exec (.arb (.imm 1)) s = .next t ∧
      t.phase.isFault = false) ∧
    ∃ s t : State, s.inBounds s.ip.toInt ∧ exec (.jt (.imm 1) (.imm (-1))) s = .next t ∧ t.phase.isFault = false :=
  ⟨⟨{ st [] with ip := 63 }, _, by decide, rfl, rfl⟩, st [], _, by decide, rfl, rfl⟩

theorem witness_StepKeepsMemoryInv : ∃ s t : State, s.MemoryInv ∧ step s = .next t :=
  ⟨st [1, 0, 0, 63], _, ⟨by decide, by decide⟩, rfl⟩

/-- A core in each waiting phase. -/
theorem witness_StepKeepsLatchInv : (∃ t, (stPhase [4, 3, 99, 77] (.offerOut 77) []).LatchInv ∧
      step (stPhase [4, 3, 99, 77] (.offerOut 77) []) = .next t) ∧
    (∃ t, (stPhase [3, 0] (.awaitIn (.pos 0)) [.closed]).LatchInv ∧
      step (stPhase [3, 0] (.awaitIn (.pos 0)) [.closed]) = .next t) ∧
    ∃ t, (stPhase [99] .offerShutdown []).LatchInv ∧ step (stPhase [99] .offerShutdown []) = .next t :=
  ⟨⟨_, ⟨.pos 3, rfl, rfl⟩, rfl⟩, ⟨_, rfl, rfl⟩, _, rfl, rfl⟩

theorem witness_StepKeepsProtocolInv : ∃ s t : State, s.ProtocolInv ∧ step s = .next t :=
  ⟨{ stPhase [3, 0] (.awaitIn (.pos 0)) [.closed] with trace := [.send (.data 7), .send .requestInput] }, _, rfl, rfl⟩

theorem witness_ResetMeetsInvariants : ∃ prog : List Word, prog.length ≤ small.arenaSize := ⟨[99], by decide⟩

/-- Both clauses: a halted core whose trace ends with `Shutdown`, and a faulted one. -/
theorem witness_ShutdownIsLastAndHalts :
    (∃ s : State, s.ProtocolInv ∧ s.trace = [.send (.data 7)] ++ .send .shutdown :: []) ∧
    ∃ s : State, s.ProtocolInv ∧ s.phase.isFault = true :=
  ⟨⟨{ stPhase [99] .halted [] with trace := [.send (.data 7), .send .shutdown] }, rfl, rfl⟩,
    stPhase [0] (.faulted ⟨0, some 0, .malformedInstruction (.badOpcode 0)⟩) [], .inl rfl, rfl⟩

/-- A fault of a `τ` step and a fault of a receive. -/
theorem witness_FaultsArePrecise : (∃ (s t : State) (f : FaultRecord), step s = .next t ∧ s.phase = .ready ∧
      t.phase = .faulted f) ∧
    ∃ (s t : State) (f : FaultRecord) (d : Param), step s = .next t ∧ s.phase = .awaitIn d ∧ t.phase = .faulted f :=
  ⟨⟨st [0], _, _, rfl, rfl, rfl⟩, stPhase [3, 0] (.awaitIn (.pos 0)) [.closed], _, _, .pos 0, rfl, rfl, rfl⟩

theorem witness_OnlyHaltEndsNormally : (∃ s t : State, step s = .next t ∧ t.phase = .halted) ∧
    ∃ s t : State, step s = .next t ∧ t.phase = .offerShutdown :=
  ⟨⟨stPhase [99] .offerShutdown [], _, rfl, rfl⟩, st [99], _, rfl, rfl⟩

theorem witness_StoreIsSeenByTheNextFetch : ∃ (s t : State) (a b d : Param) (x y r : Word), ∃ e ∈ aluTable, s.mem.wf ∧
    s.inBounds s.ip.toInt ∧ resolveSrc a s = .ok x ∧ resolveSrc b s = .ok y ∧ e.2 x y = .ok r ∧
    effAddr s.rb d = some (s.ip.toInt + 4) ∧ s.inBounds (s.ip.toInt + 4) ∧ exec (e.1 a b d) s = .next t ∧
    t.phase = .ready ∧ ∃ m, decodeHead r = .error m :=
  ⟨st [1101, 5, 5, 4, 99], _, .imm 5, .imm 5, .pos 4, 5, 5, 10, (Instr.add, fAdd), by simp [aluTable], by decide, by decide,
    rfl, rfl, rfl, rfl, by decide, rfl, rfl, _, rfl⟩

theorem witness_CanonicalMemoriesAreEqual : ∃ m n : Memory, m.wf ∧ n.wf ∧ ∀ a, m.read a = n.read a :=
  ⟨[(3, 7)], Memory.write [] 3 7, by decide, by decide, fun _ => rfl⟩

theorem witness_TightLoopNeverEnds : ∃ s : State, s.phase = .ready ∧ s.ip = 0 ∧ s.holdsAtIp (pseudoJmp (.imm 0)) :=
  ⟨st [1105, 1, 0], rfl, rfl, holdsAtIp_of_words (by decide)⟩

theorem witness_PseudoInstructionsAct : ∃ (s : State) (p d : Param) (x : Word) (c : Int), resolveSrc p s = .ok x ∧ s.mem.wf ∧
    effAddr s.rb d = some c ∧ s.inBounds c :=
  ⟨stRb [1] 60, .pos 0, .rel 3, 1, 63, rfl, by decide, rfl, by decide⟩

/-- An ADD with all three modes, a pseudo-instruction and a HLT, and their text in the form of R320 and R321. -/
theorem witness_AssemblerEmitsEncodings :
    let lines : List (SourceStmt × List TextItem) :=
      [(.instr (.add (.pos 19) (.imm (-1)) (.rel (-3))), [⟨false, [1, 9]⟩, ⟨true, [1]⟩, ⟨true, [3]⟩]),
        (.jmp (.rel 2), [⟨false, [0, 2]⟩]), (.instr .hlt, [])]
    (∀ l ∈ lines, l.1.writtenBy l.2) ∧
    joinChars ['\n'] (lines.map fun l => l.1.chars l.2) = "ADD [19], #-1, [rb-3]\nJMP [rb+02]\nHLT".toList := by
  refine ⟨?_, by decide⟩
  simp only [List.forall_mem_cons, List.not_mem_nil, false_implies, implies_true, and_true, SourceStmt.writtenBy]
  refine ⟨⟨by decide, by decide⟩, ⟨by decide, by decide⟩, by decide⟩

/-- An instruction placed at `ip`, and one placed at 0 because it would not fit at `ip`. -/
theorem witness_PlacedInstructionRuns :
    let meets (a : Word) : Prop := 4 ≤ ({ st [7] with ip := a } : State).config.arenaSize ∧
      ({ st [7] with ip := a } : State).mem.wf ∧ ∃ i, decodeTableWord 64 2105 = some i
    meets 0 ∧ meets 60 ∧ meets 61 := by
  refine ⟨?_, ?_, ?_⟩ <;> exact ⟨by decide, by decide, _, rfl⟩

end Sys2Proof.Tests
end

section
/-! PROOFS. What a port step makes of each field, and the frame of every instruction's internal step. -/

namespace Sys2Proof

/-- The instructions with a destination, but for IN, are the four arithmetic and comparison ones. -/
theorem Instr.opcode_of_dst? {i : Instr} {d : Param} (hd : i.dst? = some d) (hi : i.opcode ≠ .inp) :
    i.opcode ∈ [Opcode.add, .mul, .lt, .eq] := by
  cases i with
  | add | mul | lt | eq => simp [Instr.opcode]
  | inp => exact absurd rfl hi
  | out | jt | jf | arb | hlt => cases hd

end Sys2Proof

namespace Sys2Proof.Machine

/-- What is offered says which waiting phase the core is in (R421). -/
theorem Phase.offer?_eq_some {p : Phase} {m : Message} :
    p.offer? = some m ↔
      (∃ v, p = .offerOut v ∧ m = .data v) ∨ (∃ d, p = .offerReq d ∧ m = .requestInput) ∨
        (p = .offerShutdown ∧ m = .shutdown) := by
  cases p <;> simp [Phase.offer?, eq_comm]

theorem accept_offerOut {s : State} {v : Word} (h : s.phase = .offerOut v) (m : Message) :
    s.accept m = ((s.logPort (.send m)).advance 2).setPhase .ready := by
  simp [State.accept, State.afterSend, h]

theorem accept_offerReq {s : State} {d : Param} (h : s.phase = .offerReq d) (m : Message) :
    s.accept m = (s.logPort (.send m)).setPhase (.awaitIn d) := by
  simp [State.accept, State.afterSend, h]

theorem accept_offerShutdown {s : State} (h : s.phase = .offerShutdown) (m : Message) :
    s.accept m = (s.logPort (.send m)).setPhase .halted := by
  simp [State.accept, State.afterSend, h]

/-- An accepted offer moves `ip`, the phase and the trace at most. -/
theorem accept_eq (m : Message) (s : State) :
    s.accept m = { s with
      ip := (s.accept m).ip, phase := (s.accept m).phase, trace := s.trace ++ [.send m] } := by
  obtain ⟨config, mem, ip, rb, phase, accepts, answers, trace⟩ := s
  cases phase <;> rfl

@[simp] theorem accept_config (m : Message) (s : State) : (s.accept m).config = s.config := by rw [accept_eq]
@[simp] theorem accept_mem (m : Message) (s : State) : (s.accept m).mem = s.mem := by rw [accept_eq]
@[simp] theorem accept_rb (m : Message) (s : State) : (s.accept m).rb = s.rb := by rw [accept_eq]
@[simp] theorem accept_accepts (m : Message) (s : State) : (s.accept m).accepts = s.accepts := by rw [accept_eq]
@[simp] theorem accept_answers (m : Message) (s : State) : (s.accept m).answers = s.answers := by rw [accept_eq]
@[simp] theorem accept_trace (m : Message) (s : State) : (s.accept m).trace = s.trace ++ [.send m] := by rw [accept_eq]

/-- Neither the parameter nor anything of the port is touched by an instruction's internal step. -/
theorem exec_keeps_port {i : Instr} {s t : State} (h : exec i s = .next t) :
    t.config = s.config ∧ t.trace = s.trace ∧ t.accepts = s.accepts ∧ t.answers = s.answers := by
  rcases exec_cases h with ⟨d, rfl⟩ | ⟨d, v, c, -, -, -, -, rfl⟩ | ⟨c, g, y, -, -, rfl | rfl⟩ | ⟨p, v, -, -, -, rfl⟩ |
    ⟨d, -, rfl⟩ | ⟨p, v, -, -, rfl⟩ | ⟨-, rfl⟩ <;>
  exact ⟨rfl, rfl, rfl, rfl⟩

/-- The phase an instruction's internal step leaves: the one before, a fault's, or the waiting phase of IN, OUT or HLT. -/
theorem exec_phase_cases {i : Instr} {s t : State} (h : exec i s = .next t) :
    (t.phase = s.phase ∧ i.opcode ∉ [Opcode.inp, .out, .hlt]) ∨ (∃ d, t = s.raise d) ∨
    (∃ d, i = .inp d ∧ t = s.setPhase (.offerReq d)) ∨
    (∃ p v, i = .out p ∧ resolveSrc p s = .ok v ∧ t = s.setPhase (.offerOut v)) ∨
    (i = .hlt ∧ t = s.setPhase .offerShutdown) := by
  rcases exec_cases h with hd | ⟨d, v, c, hd, hi, -, -, rfl⟩ | ⟨c, g, y, rfl | rfl, -, rfl | rfl⟩ | ⟨p, v, rfl, -, -, rfl⟩ | hw
  · exact .inr (.inl hd)
  · have := Instr.opcode_of_dst? hd hi
    exact .inl ⟨rfl, by rcases (by simpa using this) with h | h | h | h <;> simp [h]⟩
  · exact .inl ⟨rfl, by simp [Instr.opcode]⟩
  · exact .inl ⟨rfl, by simp [Instr.opcode]⟩
  · exact .inl ⟨rfl, by simp [Instr.opcode]⟩
  · exact .inl ⟨rfl, by simp [Instr.opcode]⟩
  · exact .inl ⟨rfl, by simp [Instr.opcode]⟩
  · exact .inr (.inr hw)

end Sys2Proof.Machine
end

section
/-! PROOFS. What phase and memory say of each other, kept by every step (R112, R607). -/

namespace Sys2Proof.Machine

theorem State.latchInv_of_ready {s : State} (h : s.phase = .ready) : s.LatchInv := by
  simp [State.LatchInv, h]

/-- The record of a fault names the instruction at `ip`, which stays (R607, R611). -/
theorem raise_latchInv (s : State) (d : FaultDetail) : (s.raise d).LatchInv := ⟨rfl, rfl⟩

/-- The instruction at `ip` enters its waiting phase with its own operand latched. -/
theorem exec_establishes_latchInv {i : Instr} {s t : State} (hp : s.phase = .ready) (hf : fetch s = .ok i)
    (h : exec i s = .next t) : t.LatchInv := by
  rcases exec_phase_cases h with ⟨ht, -⟩ | ⟨d, rfl⟩ | ⟨d, rfl, rfl⟩ | ⟨p, v, rfl, hv, rfl⟩ | ⟨rfl, rfl⟩
  · exact State.latchInv_of_ready (ht.trans hp)
  · exact raise_latchInv s d
  · exact (fetch_congr rfl rfl rfl).trans hf
  · exact ⟨p, (fetch_congr rfl rfl rfl).trans hf, (resolveSrc_congr p rfl rfl rfl).trans hv⟩
  · exact (fetch_congr rfl rfl rfl).trans hf

/-- A waiting IN or HLT whose offer is accepted has the same instruction at `ip` in its next phase; an OUT is done. -/
theorem accept_keeps_latchInv {s : State} {m : Message} (hm : s.phase.offer? = some m) (h : s.LatchInv) :
    (s.accept m).LatchInv := by
  unfold State.LatchInv at h
  rcases Phase.offer?_eq_some.mp hm with ⟨v, hp, -⟩ | ⟨d, hp, -⟩ | ⟨hp, -⟩ <;> rw [hp] at h
  · rw [accept_offerOut hp]
    exact State.latchInv_of_ready rfl
  · rw [accept_offerReq hp]
    exact (fetch_congr rfl rfl rfl).trans h
  · rw [accept_offerShutdown hp]
    exact (fetch_congr rfl rfl rfl).trans h

/-- An answered IN is done or has faulted, and either way nothing stays latched that memory could contradict. -/
theorem receive_latchInv (d : Param) (a : Answer) (s : State) : (s.receive d a).LatchInv := by
  rcases receive_cases d a s with ⟨v, c, -, -, -, ht⟩ | ⟨e, ht⟩
  · exact State.latchInv_of_ready (by rw [ht])
  · rw [ht]
    exact raise_latchInv _ e

/-- Settles O44, by the cases of a step: what was latched came from the instruction at `ip`, and until that instruction ends
neither `ip` nor memory changes. -/
theorem stepKeepsLatchInv : Obligations.StepKeepsLatchInv := by
  intro s t hs h
  rcases step_cases h with ⟨hp, i, hf, hi⟩ | ⟨-, d, -, rfl⟩ | ⟨m, k, hm, -, rfl⟩ | ⟨d, a, as, -, -, rfl⟩
  · exact exec_establishes_latchInv hp hf hi
  · exact raise_latchInv s d
  · exact accept_keeps_latchInv (s := { s with accepts := k }) hm hs
  · exact receive_latchInv d a _

end Sys2Proof.Machine
end

section
/-! PROOFS. The port protocol, kept by every step (R426). -/

namespace Sys2Proof.Machine

@[simp] theorem portStand_append (tr : List PortEvent) (e : PortEvent) :
    portStand (tr ++ [e]) = (portStand tr).after e := by
  simp [portStand]

/-- Where the trace must stand in each phase but `Faulted`, which leaves two places. -/
def Phase.stand : Phase → PortStand
  | .awaitIn _ => .asked
  | .halted => .ended
  | _ => .idle

/-- In a phase other than `Faulted` the protocol invariant fixes where the trace stands. -/
theorem State.protocolInv_iff {s : State} (h : s.phase.isFault = false) :
    s.ProtocolInv ↔ portStand s.trace = s.phase.stand := by
  unfold State.ProtocolInv
  cases hp : s.phase <;> simp_all [Phase.isFault, Phase.stand]

theorem State.protocolInv_of_faulted {s : State} {f : FaultRecord} (h : s.phase = .faulted f) :
    s.ProtocolInv ↔ portStand s.trace = .idle ∨ portStand s.trace = .failed := by
  simp [State.ProtocolInv, h]

/-- An instruction's internal step touches no port, and starts and ends where no request is open. -/
theorem exec_keeps_protocolInv {i : Instr} {s t : State} (hp : s.phase = .ready) (hs : portStand s.trace = .idle)
    (h : exec i s = .next t) : t.ProtocolInv := by
  rcases exec_phase_cases h with ⟨ht, -⟩ | ⟨d, rfl⟩ | ⟨d, -, rfl⟩ | ⟨p, v, -, -, rfl⟩ | ⟨-, rfl⟩
  · have hr : t.phase = .ready := ht.trans hp
    rw [State.protocolInv_iff (by rw [hr]; rfl), (exec_keeps_port h).2.1, hr]
    exact hs
  · exact (State.protocolInv_of_faulted rfl).mpr (.inl hs)
  · exact (State.protocolInv_iff rfl).mpr hs
  · exact (State.protocolInv_iff rfl).mpr hs
  · exact (State.protocolInv_iff rfl).mpr hs

/-- An accepted offer moves the trace as the next phase says: OUT stays idle, IN has asked, HLT has ended. -/
theorem accept_keeps_protocolInv {s : State} {m : Message} (hm : s.phase.offer? = some m) (h : s.ProtocolInv) :
    (s.accept m).ProtocolInv := by
  rcases Phase.offer?_eq_some.mp hm with ⟨v, hp, rfl⟩ | ⟨d, hp, rfl⟩ | ⟨hp, rfl⟩
  all_goals rw [State.protocolInv_iff (by rw [hp]; rfl), hp] at h
  · rw [accept_offerOut hp, State.protocolInv_iff rfl]
    simp [h, Phase.stand, PortStand.after]
  · rw [accept_offerReq hp, State.protocolInv_iff rfl]
    simp [h, Phase.stand, PortStand.after]
  · rw [accept_offerShutdown hp, State.protocolInv_iff rfl]
    simp [h, Phase.stand, PortStand.after]

/-- After a request, an answer leaves the trace idle if it is data, and failed if it is not. -/
theorem PortStand.asked_after_recv (a : Answer) :
    PortStand.asked.after (.recv a) = .idle ∨ PortStand.asked.after (.recv a) = .failed := by
  rcases a with (_ | _ | _) | _ <;> simp [PortStand.after]

/-- An answered request closes it, or ends the run in a fault after which nothing may follow. -/
theorem receive_keeps_protocolInv {s : State} (d : Param) (a : Answer) (h : portStand s.trace = .asked) :
    (s.receive d a).ProtocolInv := by
  rcases receive_cases d a s with ⟨v, c, rfl, -, -, ht⟩ | ⟨e, ht⟩
  · rw [ht, State.protocolInv_iff rfl]
    simp [h, Phase.stand, PortStand.after]
  · rw [ht, State.protocolInv_of_faulted rfl]
    simpa [h] using PortStand.asked_after_recv a

/-- Settles O45, by the cases of a step: the internal step leaves the trace, and each port step moves phase and trace
together. -/
theorem stepKeepsProtocolInv : Obligations.StepKeepsProtocolInv := by
  intro s t hs h
  have idle (hp : s.phase = .ready) : portStand s.trace = .idle := by
    rwa [State.protocolInv_iff (by rw [hp]; rfl), hp] at hs
  rcases step_cases h with ⟨hp, i, -, hi⟩ | ⟨hp, d, -, rfl⟩ | ⟨m, k, hm, -, rfl⟩ | ⟨d, a, as, hp, -, rfl⟩
  · exact exec_keeps_protocolInv hp (idle hp) hi
  · exact (State.protocolInv_of_faulted rfl).mpr (.inl (idle hp))
  · exact accept_keeps_protocolInv (s := { s with accepts := k }) hm hs
  · rw [State.protocolInv_iff (by rw [hp]; rfl), hp] at hs
    exact receive_keeps_protocolInv d a hs

end Sys2Proof.Machine
end

section
/-! PROOFS. The machine's step and the labelled step relation: when each exists and how they agree (R120 to R124). -/

namespace Sys2Proof.Machine

theorem step_offer {s : State} {m : Message} (h : s.phase.offer? = some m) : step s = offerStep m s := by
  rcases Phase.offer?_eq_some.mp h with ⟨v, hp, rfl⟩ | ⟨d, hp, rfl⟩ | ⟨hp, rfl⟩ <;> simp [step, hp]

theorem step_awaitIn {s : State} {d : Param} (h : s.phase = .awaitIn d) : step s = awaitStep d s := by
  simp [step, h]

theorem step_halted {s : State} (h : s.phase = .halted) : step s = .fault .halted := by
  simp [step, h]

theorem step_faulted {s : State} {f : FaultRecord} (h : s.phase = .faulted f) : step s = .fault (.faulted f) := by
  simp [step, h]

theorem offerStep_accepts {s : State} {k : Nat} (m : Message) (h : s.accepts = k + 1) :
    offerStep m s = .next (State.accept m { s with accepts := k }) := by
  simp [offerStep, h]

theorem offerStep_silent {s : State} (m : Message) (h : s.accepts = 0) : offerStep m s = .refused .environmentSilent := by
  simp [offerStep, h]

theorem awaitStep_answers {s : State} {a : Answer} {as : List Answer} (d : Param) (h : s.answers = a :: as) :
    awaitStep d s = .next (State.receive d a { s with answers := as }) := by
  simp [awaitStep, h]

theorem awaitStep_silent {s : State} (d : Param) (h : s.answers = []) : awaitStep d s = .refused .environmentSilent := by
  simp [awaitStep, h]

/-- In `Ready` the machine always has a next state: the instruction's, or the decoding fault's. -/
theorem tauStep_next (s : State) : ∃ t, tauStep s = .next t := by
  unfold tauStep
  cases fetch s with
  | ok i => exact exec_next i s
  | error d => exact ⟨_, rfl⟩

/-- The phases sorted by what can move the core: itself, an acceptance, an answer, nothing. -/
theorem Phase.movers (p : Phase) :
    p = .ready ∨ (∃ m, p.offer? = some m) ∨ (∃ d, p = .awaitIn d) ∨ p = .halted ∨ ∃ f, p = .faulted f := by
  cases p <;> simp [Phase.offer?]

/-- What one step answers in each phase, next states and refusals alike; `step_cases` says what the next states are. -/
theorem step_exists_cases (s : State) :
    (s.phase = .ready ∧ ∃ t, step s = .next t) ∨
    (∃ m, s.phase.offer? = some m ∧
      ((s.accepts = 0 ∧ step s = .refused .environmentSilent) ∨ (0 < s.accepts ∧ ∃ t, step s = .next t))) ∨
    (∃ d, s.phase = .awaitIn d ∧
      ((s.answers = [] ∧ step s = .refused .environmentSilent) ∨ (s.answers ≠ [] ∧ ∃ t, step s = .next t))) ∨
    (s.phase = .halted ∧ step s = .fault .halted) ∨
    ∃ f, s.phase = .faulted f ∧ step s = .fault (.faulted f) := by
  rcases s.phase.movers with hp | ⟨m, hm⟩ | ⟨d, hp⟩ | hp | ⟨f, hp⟩
  · exact .inl ⟨hp, step_ready hp ▸ tauStep_next s⟩
  · refine .inr (.inl ⟨m, hm, ?_⟩)
    rw [step_offer hm]
    cases hk : s.accepts with
    | zero => exact .inl ⟨rfl, offerStep_silent m hk⟩
    | succ k => exact .inr ⟨k.succ_pos, _, offerStep_accepts m hk⟩
  · refine .inr (.inr (.inl ⟨d, hp, ?_⟩))
    rw [step_awaitIn hp]
    cases ha : s.answers with
    | nil => exact .inl ⟨rfl, awaitStep_silent d ha⟩
    | cons a as => exact .inr ⟨List.cons_ne_nil a as, _, awaitStep_answers d ha⟩
  · exact .inr (.inr (.inr (.inl ⟨hp, step_halted hp⟩)))
  · exact .inr (.inr (.inr (.inr ⟨f, hp, step_faulted hp⟩)))

/-- The machine has a next state exactly in `Ready` and where the environment gives the event a waiting core needs. -/
theorem step_next_iff (s : State) :
    (∃ t, step s = .next t) ↔
      s.phase = .ready ∨ (s.phase.offer?.isSome = true ∧ 0 < s.accepts) ∨
        ((∃ d, s.phase = .awaitIn d) ∧ s.answers ≠ []) := by
  rcases step_exists_cases s with ⟨hp, ht⟩ | ⟨m, hm, ⟨hk, ht⟩ | ⟨hk, ht⟩⟩ | ⟨d, hp, ⟨ha, ht⟩ | ⟨ha, ht⟩⟩ | ⟨hp, ht⟩ |
    ⟨f, hp, ht⟩
  · simp [hp, ht]
  · have : s.phase ≠ .ready ∧ ∀ d, s.phase ≠ .awaitIn d := by
      constructor <;> intros <;> intro hp <;> simp [hp, Phase.offer?] at hm
    simp [ht, hk, this]
  · simp [ht, hm, hk]
  · simp [hp, ht, ha, Phase.offer?]
  · simp [hp, ht, ha]
  · simp [hp, ht, Phase.offer?]
  · simp [hp, ht, Phase.offer?]

/-- The core is stuck exactly when it waits and the environment does not give the event it waits for. -/
theorem stuck_iff (s : State) :
    s.stuck ↔ (s.phase.offer?.isSome = true ∧ s.accepts = 0) ∨ ((∃ d, s.phase = .awaitIn d) ∧ s.answers = []) := by
  rcases step_exists_cases s with ⟨hp, t, ht⟩ | ⟨m, hm, ⟨hk, ht⟩ | ⟨hk, t, ht⟩⟩ | ⟨d, hp, ⟨ha, ht⟩ | ⟨ha, t, ht⟩⟩ |
    ⟨hp, ht⟩ | ⟨f, hp, ht⟩
  · simp [State.stuck, hp, ht, Phase.offer?]
  · simp [State.stuck, ht, hm, hk]
  · have : ∀ d, s.phase ≠ .awaitIn d := fun d hp => by simp [hp, Phase.offer?] at hm
    simp [State.stuck, ht, hm, hk.ne', this]
  · simp [State.stuck, hp, ht, ha]
  · simp [State.stuck, hp, ht, ha, Phase.offer?]
  · simp [State.stuck, hp, ht, Phase.offer?]
  · simp [State.stuck, hp, ht, Phase.offer?]

/-! The labelled steps. -/

theorem labelledStep_tau {s t : State} :
    labelledStep .tau s = some t ↔ s.phase = .ready ∧ step s = .next t := by
  cases hp : s.phase with
  | ready =>
    obtain ⟨u, hu⟩ := tauStep_next s
    simp [labelledStep, hp, hu, step_ready hp]
  | _ => simp [labelledStep, hp]

theorem labelledStep_send {s t : State} {m : Message} :
    labelledStep (.port (.send m)) s = some t ↔ s.phase.offer? = some m ∧ s.accept m = t := by
  simp [labelledStep]

theorem labelledStep_recv {s t : State} {a : Answer} :
    labelledStep (.port (.recv a)) s = some t ↔ ∃ d, s.phase = .awaitIn d ∧ s.receive d a = t := by
  cases hp : s.phase <;> simp [labelledStep, hp]

/-- The fields of the environment are only carried along by an accepted offer. -/
theorem accept_setAccepts (m : Message) (k : Nat) (s : State) :
    State.accept m { s with accepts := k } = { s.accept m with accepts := k } := by
  obtain ⟨config, mem, ip, rb, phase, accepts, answers, trace⟩ := s
  cases phase <;> rfl

/-- The answers still to come, and `rb` where it does not decide the destination, are only carried along by an answered IN. -/
theorem receive_setRb_setAnswers {s : State} {d : Param} {r : Word} (a : Answer) (as : List Answer)
    (h : effAddr r d = effAddr s.rb d) :
    State.receive d a { s with rb := r, answers := as } = { s.receive d a with rb := r, answers := as } := by
  rcases a with (v | _ | _) | _
  · cases he : effAddr s.rb d with
    | none =>
      rw [receive_fault (s := { s with rb := r, answers := as }) (storeAnswer_data_error.1 (h.trans he)),
        receive_fault (storeAnswer_data_error.1 he)]
      rfl
    | some c =>
      by_cases hb : s.inBounds c
      · rw [receive_data (s := { s with rb := r, answers := as }) v (h.trans he) hb, receive_data v he hb]
      · rw [receive_fault (s := { s with rb := r, answers := as }) (storeAnswer_data_error.2 c (h.trans he) hb),
          receive_fault (storeAnswer_data_error.2 c he hb)]
        rfl
  · rfl
  · rfl
  · rfl

/-- An answered IN leaves everything that is neither memory, `ip`, phase nor the trace. -/
theorem receive_keeps (d : Param) (a : Answer) (s : State) :
    (s.receive d a).config = s.config ∧ (s.receive d a).rb = s.rb ∧ (s.receive d a).accepts = s.accepts ∧
      (s.receive d a).answers = s.answers ∧ (s.receive d a).trace = s.trace ++ [.recv a] := by
  rcases receive_cases d a s with ⟨v, c, -, -, -, ht⟩ | ⟨e, ht⟩ <;> rw [ht] <;> exact ⟨rfl, rfl, rfl, rfl, rfl⟩

/-- A core moves, is stuck, or has ended. -/
theorem step_total (s : State) : (∃ t, step s = .next t) ∨ s.stuck ∨ s.phase = .halted ∨ ∃ f, s.phase = .faulted f := by
  rcases step_exists_cases s with ⟨-, ht⟩ | ⟨m, -, ⟨-, ht⟩ | ⟨-, ht⟩⟩ | ⟨d, -, ⟨-, ht⟩ | ⟨-, ht⟩⟩ | ⟨hp, -⟩ | ⟨f, hp, -⟩
  · exact .inl ht
  · exact .inr (.inl ht)
  · exact .inl ht
  · exact .inr (.inl ht)
  · exact .inl ht
  · exact .inr (.inr (.inl hp))
  · exact .inr (.inr (.inr ⟨f, hp⟩))

/-- Settles O19: in each phase the step exists, is refused by a silent environment, or has ended. -/
theorem stepExistsUnlessEndedOrSilent : Obligations.StepExistsUnlessEndedOrSilent :=
  fun s => ⟨step_next_iff s, step_total s⟩

/-- Settles O16: no label is enabled in an ended phase, and the step there is an end, not a refusal. -/
theorem endedCoreHasNoStep : Obligations.EndedCoreHasNoStep := by
  intro s hs
  refine ⟨fun l => Option.eq_none_iff_forall_ne_some.mpr fun t hl => ?_, fun k as t ht => ?_, fun ht => ?_⟩
  · rcases l with _ | m | a
    · have := (labelledStep_tau.mp hl).1
      simp_all
    · have := (labelledStep_send.mp hl).1
      rcases hs with hp | ⟨f, hp⟩ <;> simp [hp, Phase.offer?] at this
    · obtain ⟨d, hp, -⟩ := labelledStep_recv.mp hl
      simp_all
  · have := (step_next_iff { s with accepts := k, answers := as }).mp ⟨t, ht⟩
    rcases hs with hp | ⟨f, hp⟩ <;> simp [hp, Phase.offer?] at this
  · have := (stuck_iff s).mp ht
    rcases hs with hp | ⟨f, hp⟩ <;> simp [hp, Phase.offer?] at this

/-- Settles O15: a waiting phase offers a message or awaits an answer, and its step is that event's. -/
theorem waitingMovesOnlyOnItsEvent : Obligations.WaitingMovesOnlyOnItsEvent := by
  intro s hw
  have hready : s.phase ≠ .ready := fun hp => by simp [hp, Phase.waiting] at hw
  refine ⟨?_, fun m => ?_, fun a => ?_, stuck_iff s, fun hs => ?_⟩
  · exact Option.eq_none_iff_forall_ne_some.mpr fun t hl => hready (labelledStep_tau.mp hl).1
  · simp [Option.isSome_iff_exists, labelledStep_send]
  · simp [Option.isSome_iff_exists, labelledStep_recv]
  · rcases step_total s with ⟨t, ht⟩ | hst | hp | ⟨f, hp⟩
    · rcases step_cases ht with ⟨hp, -⟩ | ⟨hp, -⟩ | ⟨m, k, hm, -, rfl⟩ | ⟨d, a, as, -, ha, rfl⟩
      · exact absurd hp hready
      · exact absurd hp hready
      · exact ⟨_, .send m, ht, accept_trace .., .inl ⟨m, rfl, hm⟩⟩
      · obtain ⟨-, -, -, -, htr⟩ := receive_keeps d a { s with answers := as }
        exact ⟨_, .recv a, ht, htr, .inr ⟨a, rfl, by rw [ha]; rfl⟩⟩
    · exact absurd hst hs
    · simp [hp, Phase.waiting] at hw
    · simp [hp, Phase.waiting] at hw

/-- Settles O17, by the cases of a step; each has its label. -/
theorem stepIsOneLabelledStep : Obligations.StepIsOneLabelledStep := by
  intro s t h
  rcases step_cases h with ⟨hp, i, -, hi⟩ | ⟨hp, d, -, rfl⟩ | ⟨m, k, hm, hk, rfl⟩ | ⟨d, a, as, hp, ha, rfl⟩
  · exact ⟨.tau, t, labelledStep_tau.mpr ⟨hp, h⟩, rfl, (exec_keeps_port hi).2⟩
  · exact ⟨.tau, _, labelledStep_tau.mpr ⟨hp, h⟩, rfl, rfl, rfl, rfl⟩
  · refine ⟨.port (.send m), s.accept m, labelledStep_send.mpr ⟨hm, rfl⟩, ?_, ?_⟩
    · rw [accept_setAccepts]
    · simp [hk]
  · refine ⟨.port (.recv a), s.receive d a, labelledStep_recv.mpr ⟨d, hp, rfl⟩, ?_, ?_⟩
    · obtain ⟨-, hrb, -⟩ := receive_keeps d a s
      rw [receive_setRb_setAnswers (s := s) (r := s.rb) a as rfl, ← hrb]
    · obtain ⟨-, -, hacc, hans, htr⟩ := receive_keeps d a { s with answers := as }
      exact ⟨htr, hacc, by rw [ha, hans]⟩

/-- Settles O18: the environment that accepts one offer more than it will afterwards, or gives the answer first. -/
theorem labelledStepIsAStep : Obligations.LabelledStepIsAStep := by
  intro s u l h
  rcases l with _ | m | a
  · exact ⟨s.accepts, s.answers, (labelledStep_tau.mp h).2⟩
  · obtain ⟨hm, rfl⟩ := labelledStep_send.mp h
    refine ⟨s.accepts + 1, s.answers, ?_⟩
    exact (step_offer (s := { s with accepts := s.accepts + 1 }) hm).trans (offerStep_accepts m rfl)
  · obtain ⟨d, hp, rfl⟩ := labelledStep_recv.mp h
    refine ⟨s.accepts, a :: s.answers, ?_⟩
    exact (step_awaitIn (s := { s with answers := a :: s.answers }) hp).trans (awaitStep_answers d rfl)

/-- Settles O14: the step is the instruction's `exec`, whose cases say which phase it ends in, or the decoding fault. -/
theorem readyStepShape : Obligations.ReadyStepShape := by
  intro s hp
  have hstep := step_ready hp
  cases hf : fetch s with
  | error d =>
    have ht : step s = .next (s.raise d) := by rw [hstep, tauStep, hf]
    exact ⟨_, ht, rfl, rfl, rfl, ht, .inl rfl⟩
  | ok i =>
    obtain ⟨t, ht⟩ := exec_next i s
    have hs : step s = exec i s := by rw [hstep, tauStep, hf]
    obtain ⟨-, htr, hacc, hans⟩ := exec_keeps_port ht
    refine ⟨t, hs.trans ht, htr, hacc, hans, hs, ?_⟩
    rcases exec_phase_cases ht with ⟨hph, hop⟩ | ⟨d, rfl⟩ | ⟨d, rfl, rfl⟩ | ⟨p, v, rfl, hv, rfl⟩ | ⟨rfl, rfl⟩
    · refine .inr ⟨i, rfl, ?_⟩
      cases i with
      | inp | out | hlt => simp [Instr.opcode] at hop
      | _ => exact hph.trans hp
    · exact .inl rfl
    · exact .inr ⟨_, rfl, rfl⟩
    · exact .inr ⟨_, rfl, v, hv, rfl⟩
    · exact .inr ⟨_, rfl, rfl⟩

end Sys2Proof.Machine
end

section
/-! PROOFS. What the instructions do when their sources resolve, and their frames. -/

namespace Sys2Proof.Machine

theorem toInt_eq_zero_iff {x : Word} : x.toInt = 0 ↔ x = 0 := BitVec.toInt_inj (y := 0#64)

/-- A jump whose operands resolve goes to its target or past itself, as its test on the condition says. -/
theorem settle_condJump {s : State} {c g : Param} {x y : Word} (taken : Word → Bool) (hx : resolveSrc c s = .ok x)
    (hy : resolveSrc g s = .ok y) :
    s.settle (condJump taken c g s) = if taken x then s.jump y else s.advance 3 := by
  rw [condJump_ok.mpr ⟨x, y, hx, hy, rfl⟩, State.settle_ok]

theorem exec_jt {s : State} {c g : Param} {x y : Word} (hx : resolveSrc c s = .ok x) (hy : resolveSrc g s = .ok y) :
    exec (.jt c g) s = .next (if x ≠ 0 then s.jump y else s.advance 3) := by
  simp only [exec, execJt, settle_condJump _ hx hy, decide_eq_true_eq]

theorem exec_jf {s : State} {c g : Param} {x y : Word} (hx : resolveSrc c s = .ok x) (hy : resolveSrc g s = .ok y) :
    exec (.jf c g) s = .next (if x = 0 then s.jump y else s.advance 3) := by
  simp only [exec, execJf, settle_condJump _ hx hy, decide_eq_true_eq]

theorem exec_out {s : State} {p : Param} {v : Word} (hv : resolveSrc p s = .ok v) :
    exec (.out p) s = .next (s.setPhase (.offerOut v)) := by
  simp only [exec, execOut, hv]
  rfl

theorem exec_arb {s : State} {p : Param} {v : Word} (hv : resolveSrc p s = .ok v) (hw : InWord (s.rb.toInt + v.toInt)) :
    exec (.arb p) s = .next ((s.setRb (Word.ofInt (s.rb.toInt + v.toInt))).advance 2) := by
  have hb : fArb s.rb v = .ok (Word.ofInt (s.rb.toInt + v.toInt)) := narrow_ok.mpr ⟨hw, rfl⟩
  simp only [exec, execArb, hv, bind, Except.bind, hb]
  rfl

/-- The four arithmetic and comparison instructions are one operation with their own result function (R400). -/
theorem exec_aluTable {e : (Param → Param → Param → Instr) × (Word → Word → Except FaultDetail Word)} (he : e ∈ aluTable)
    (a b d : Param) (s : State) : exec (e.1 a b d) s = .next (s.settle (alu e.2 a b d s)) := by
  simp only [aluTable, List.mem_cons, List.not_mem_nil, or_false] at he
  rcases he with rfl | rfl | rfl | rfl <;> rfl

/-- A store at an address that exists leaves every word at another address. -/
theorem read_write_of_ne {m : Memory} {c : Int} {n : Nat} (v : Word) (hc : 0 ≤ c) (hn : (n : Int) ≠ c) :
    (m.write c.toNat v).read n = m.read n :=
  Memory.read_write_other m v (by omega)

/-- Settles O30. -/
theorem jumpIfTrueSetsIp : Obligations.JumpIfTrueSetsIp := by
  intro s c g x y hx hy
  rw [exec_jt hx hy, ne_eq, toInt_eq_zero_iff]
  exact ⟨fun h => by rw [if_pos h]; rfl, fun h => by rw [if_neg (not_not.mpr h)]; rfl⟩

/-- Settles O31. -/
theorem jumpIfFalseSetsIp : Obligations.JumpIfFalseSetsIp := by
  intro s c g x y hx hy
  rw [exec_jf hx hy, ne_eq, toInt_eq_zero_iff]
  exact ⟨fun h => by rw [if_pos h]; rfl, fun h => by rw [if_neg h]; rfl⟩

/-- Settles O34. -/
theorem portInstructionsEnterTheirWait : Obligations.PortInstructionsEnterTheirWait :=
  ⟨fun _ _ => rfl, fun _ _ _ hv => exec_out hv, fun _ => rfl⟩

/-- Settles O39: the instruction faults with nothing else changed, or stores one word at its destination's address. -/
theorem aluFrame : Obligations.AluFrame := by
  intro s t a b d e he h
  rw [exec_aluTable he] at h
  cases h
  rcases s.settle_cases (alu e.2 a b d s) with ⟨u, hu, ht⟩ | ⟨f, -, ht⟩
  · obtain ⟨x, y, r, c, -, -, -, hc, ⟨hc0, -⟩, rfl⟩ := alu_ok.mp hu
    rw [ht]
    exact ⟨rfl, rfl, rfl, rfl, rfl, .inl rfl, fun n hn => read_write_of_ne r hc0 (hn c hc)⟩
  · rw [ht]
    exact ⟨rfl, rfl, rfl, rfl, rfl, .inr ⟨rfl, rfl⟩, fun _ _ => rfl⟩

/-- Only the four arithmetic and comparison instructions store in their internal step. -/
theorem exec_mem_of_not_alu {i : Instr} {s t : State} (hi : i.opcode ∉ [Opcode.add, .mul, .lt, .eq])
    (h : exec i s = .next t) : t.mem = s.mem := by
  rcases exec_cases h with ⟨d, rfl⟩ | ⟨d, v, c, hd, hinp, -⟩ | ⟨c, g, y, -, -, rfl | rfl⟩ | ⟨p, v, -, -, -, rfl⟩ |
    ⟨d, -, rfl⟩ | ⟨p, v, -, -, rfl⟩ | ⟨-, rfl⟩
  case inr.inl => exact absurd (Instr.opcode_of_dst? hd hinp) hi
  all_goals rfl

/-- Only ARB writes `rb` (R105). -/
theorem exec_rb {i : Instr} {s t : State} (h : exec i s = .next t) :
    t.rb = s.rb ∨ ∃ p v, i = .arb p ∧ resolveSrc p s = .ok v ∧ t.rb.toInt = s.rb.toInt + v.toInt := by
  rcases exec_cases h with ⟨d, rfl⟩ | ⟨d, v, c, -, -, -, -, rfl⟩ | ⟨c, g, y, -, -, rfl | rfl⟩ | ⟨p, v, hi, hv, hw, rfl⟩ |
    ⟨d, -, rfl⟩ | ⟨p, v, -, -, rfl⟩ | ⟨-, rfl⟩
  case inr.inr.inr.inl => exact .inr ⟨p, v, hi, hv, Word.toInt_ofInt hw⟩
  all_goals exact .inl rfl

/-- IN, OUT and HLT leave `ip` at themselves in their internal step. -/
theorem exec_ip_of_port {i : Instr} {s t : State} (hi : i.opcode ∈ [Opcode.inp, .out, .hlt]) (h : exec i s = .next t) :
    t.ip = s.ip := by
  rcases exec_phase_cases h with ⟨-, hn⟩ | ⟨d, rfl⟩ | ⟨d, -, rfl⟩ | ⟨p, v, -, -, rfl⟩ | ⟨-, rfl⟩
  case inl => exact absurd hi hn
  all_goals rfl

/-- Settles O40. -/
theorem nonStoringFrame : Obligations.NonStoringFrame := by
  intro s t i hi h
  have hm : t.mem = s.mem := exec_mem_of_not_alu (by revert hi; cases i <;> simp [Instr.opcode]) h
  obtain ⟨hcfg, htr, hacc, hans⟩ := exec_keeps_port h
  refine ⟨fun n => by rw [hm], hcfg, hacc, hans, htr, fun harb => ?_, fun hp => exec_ip_of_port hp h⟩
  rcases exec_rb h with hr | ⟨p, v, rfl, -⟩
  · exact hr
  · exact absurd rfl harb

/-- Settles O41: an accepted offer leaves memory, an answered IN writes at most at its destination's address. -/
theorem portStepFrame : Obligations.PortStepFrame := by
  intro s t hw h
  rcases step_cases h with ⟨hp, -⟩ | ⟨hp, -⟩ | ⟨m, k, -, -, rfl⟩ | ⟨d, a, as, hp, -, rfl⟩
  · simp [hp, Phase.waiting] at hw
  · simp [hp, Phase.waiting] at hw
  · simp
  · obtain ⟨hcfg, hrb, -⟩ := receive_keeps d a { s with answers := as }
    refine ⟨hrb, hcfg, fun n hn => ?_⟩
    rcases receive_cases d a { s with answers := as } with ⟨v, c, -, hc, ⟨hc0, -⟩, ht⟩ | ⟨e, ht⟩
    · rw [ht]
      exact read_write_of_ne v hc0 (hn d c hp hc)
    · rw [ht]
      rfl

/-- Going past an instruction that stands in memory never wraps, since memory is far smaller than the word range (R8, R104). -/
theorem toInt_ip_add {s : State} {n : Nat} (hb : s.inBounds s.ip.toInt) (hn : n ≤ 4) :
    (s.ip + BitVec.ofNat 64 n).toInt = s.ip.toInt + n := by
  obtain ⟨h0, h1⟩ := hb
  have := s.config.arenaLe
  exact Word.toInt_add_ofNat (by omega) (inWord_iff.mpr ⟨by omega, by omega⟩)

/-- A jump that does not fault goes on by 3 or to its target's value. -/
theorem settle_condJump_ip {s : State} {taken : Word → Bool} {c g : Param} (hb : s.inBounds s.ip.toInt)
    (hnf : (s.settle (condJump taken c g s)).phase.isFault = false) :
    (s.settle (condJump taken c g s)).ip.toInt = s.ip.toInt + 3 ∨
      resolveSrc g s = .ok (s.settle (condJump taken c g s)).ip := by
  rcases s.settle_cases (condJump taken c g s) with ⟨u, hu, ht⟩ | ⟨d, -, ht⟩ <;> rw [ht] at hnf ⊢
  · obtain ⟨x, y, -, hy, rfl⟩ := condJump_ok.mp hu
    split
    · exact .inr hy
    · exact .inl (toInt_ip_add hb (by decide))
  · cases hnf

/-- Settles O42, by the cases of `exec`. -/
theorem ipGoesPastTheInstruction : Obligations.IpGoesPastTheInstruction := by
  intro s t i hb h hnf
  refine ⟨fun hi => exec_ip_of_port hi h, fun hi => ?_, fun c g hi => ?_⟩
  · rcases exec_cases h with ⟨d, rfl⟩ | ⟨d, v, c, hd, hinp, -, -, rfl⟩ | ⟨c, g, y, rfl | rfl, -⟩ | ⟨p, v, rfl, -, -, rfl⟩ |
      ⟨d, rfl, -⟩ | ⟨p, v, rfl, -⟩ | ⟨rfl, -⟩
    · cases hnf
    · have hlen : i.length = 4 := by
        rcases (by simpa using Instr.opcode_of_dst? hd hinp) with h | h | h | h <;> simp [Instr.length, h, Opcode.arity]
      rw [hlen]
      exact toInt_ip_add hb (Nat.le_refl 4)
    · simp [Instr.opcode] at hi
    · simp [Instr.opcode] at hi
    · exact toInt_ip_add hb (by decide)
    · simp [Instr.opcode] at hi
    · simp [Instr.opcode] at hi
    · simp [Instr.opcode] at hi
  · rcases hi with rfl | rfl <;> cases h <;> exact settle_condJump_ip hb hnf

/-- After reset nothing has run, and the loaded words stand at the addresses from 0 on, as many as there are. -/
theorem start_meets_invariants {cfg : Config} {prog : List Word} (k : Nat) (as : List Answer)
    (h : prog.length ≤ cfg.arenaSize) :
    (State.start cfg prog k as).MemoryInv ∧ (State.start cfg prog k as).LatchInv ∧
      (State.start cfg prog k as).ProtocolInv ∧ (State.start cfg prog k as).trace = [] := by
  refine ⟨⟨Memory.ofWords_wf 0 prog, fun c hc => ?_⟩, trivial, rfl, rfl⟩
  obtain ⟨-, hlt, -⟩ := Memory.mem_ofWords hc
  exact Nat.lt_of_lt_of_le hlt (by rwa [Nat.zero_add])

/-- Settles O46: `State.reset` is the reset of the standard machine with an empty program. -/
theorem resetMeetsInvariants : Obligations.ResetMeetsInvariants :=
  ⟨start_meets_invariants (cfg := Config.standard) (prog := []) 0 [] (Nat.zero_le _),
    fun _ _ k as h => start_meets_invariants k as h⟩

end Sys2Proof.Machine
end

section
/-! PROOFS. Decoding what was encoded (R307, R322). -/

namespace Sys2Proof

theorem decodeModes1_of_digits {w : Nat} {a : Mode} (mk : Mode → Head) (ha : w / 10 ^ 2 % 10 = a.toDigit)
    (hx : w / 10 ^ 3 = 0) : decodeModes1 w mk = .ok (mk a) := by
  simp only [decodeModes1, decodeMode_ok.mpr ha, checkExcess, hx, if_true]

theorem decodeModes2_of_digits {w : Nat} {a b : Mode} (mk : Mode → Mode → Head) (ha : w / 10 ^ 2 % 10 = a.toDigit)
    (hb : w / 10 ^ 3 % 10 = b.toDigit) (hx : w / 10 ^ 4 = 0) : decodeModes2 w mk = .ok (mk a b) := by
  simp only [decodeModes2, decodeMode_ok.mpr ha, decodeMode_ok.mpr hb, checkExcess, hx, if_true]

theorem decodeModes3_of_digits {w : Nat} {a b c : Mode} (mk : Mode → Mode → Mode → Head)
    (ha : w / 10 ^ 2 % 10 = a.toDigit) (hb : w / 10 ^ 3 % 10 = b.toDigit) (hc : w / 10 ^ 4 % 10 = c.toDigit)
    (hx : w / 10 ^ 5 = 0) : decodeModes3 w mk = .ok (mk a b c) := by
  simp only [decodeModes3, decodeMode_ok.mpr ha, decodeMode_ok.mpr hb, decodeMode_ok.mpr hc, checkExcess, hx, if_true]

/-- The digits of an instruction word's parts decide how its modes decode: parameter `k`'s is digit `k + 1`, 0 where it is
absent, and none follows the last (R303). -/
theorem decodeModes_of_digits {w : Nat} {h : Head} (h1 : w / 10 ^ 2 % 10 = h.modeDigit 1)
    (h2 : w / 10 ^ 3 % 10 = h.modeDigit 2) (h3 : w / 10 ^ 4 % 10 = h.modeDigit 3)
    (hx : w / 10 ^ (h.opcode.arity + 2) = 0) : decodeModes h.opcode w = .ok h := by
  cases h with
  | add | mul | lt | eq => exact decodeModes3_of_digits _ h1 h2 h3 hx
  | jt | jf => exact decodeModes2_of_digits _ h1 h2 hx
  | inp | out | arb => exact decodeModes1_of_digits _ h1 hx
  | hlt => exact if_pos hx

theorem Opcode.arity_le (op : Opcode) : op.arity ≤ 3 := by
  cases op <;> decide

/-- The mode digit of an absent parameter is 0. -/
theorem Head.modeDigit_of_arity_lt {h : Head} {k : Nat} (hk : h.opcode.arity < k) : h.modeDigit k = 0 := by
  have hlen : h.modes.length = h.opcode.arity := by cases h <;> rfl
  rw [Head.modeDigit, List.getElem?_eq_none (by omega)]

/-- No digit of an instruction word stands above its last mode digit (R311). -/
theorem Head.encode_no_excess (h : Head) : h.encode.toNat / 10 ^ (h.opcode.arity + 2) = 0 := by
  have he := h.encode_toNat
  have hc := h.opcode.code_lt
  have absent (k : Nat) : h.opcode.arity < k → h.modeDigit k = 0 := Head.modeDigit_of_arity_lt
  have h1 := h.modeDigit_lt 1
  have h2 := h.modeDigit_lt 2
  have h3 := h.modeDigit_lt 3
  have a1 := absent 1
  have a2 := absent 2
  have a3 := absent 3
  have hn := h.opcode.arity_le
  clear absent
  generalize h.opcode.arity = n at *
  interval_cases n <;> omega

/-- An instruction word is decoded to the parts it was made of. -/
theorem decodeHead_encode (h : Head) : decodeHead h.encode = .ok h := by
  obtain ⟨hpos, hop⟩ := Laws.EncodingShape.head_word h
  have he := h.encode_toNat
  have h1 := h.modeDigit_lt 1
  have h2 := h.modeDigit_lt 2
  have h3 := h.modeDigit_lt 3
  have hc := h.opcode.code_lt
  rw [decodeHead, if_neg (by omega), hop, Opcode.ofCode?_code]
  exact decodeModes_of_digits (by omega) (by omega) (by omega) h.encode_no_excess

/-- What is built is exactly the instruction with the given instruction word's parts whose operand words `get` gives. -/
theorem Head.build_ok {ε : Type} {h : Head} {get : Nat → Except ε Word} {i : Instr} :
    h.build get = .ok i ↔ i.head = h ∧ ∀ k p, i.params[k]? = some p → get (k + 1) = .ok p.word := by
  constructor
  · cases h with
    | add | mul | lt | eq =>
      simp only [Head.build, Machine.bind_ok, pure, Except.pure, Except.ok.injEq]
      rintro ⟨x, hx, y, hy, z, hz, rfl⟩
      refine ⟨by simp [Instr.head], fun k p hk => ?_⟩
      rcases k with _ | _ | _ | k <;> simp [Instr.params] at hk <;> simp [← hk, hx, hy, hz]
    | jt | jf =>
      simp only [Head.build, Machine.bind_ok, pure, Except.pure, Except.ok.injEq]
      rintro ⟨x, hx, y, hy, rfl⟩
      refine ⟨by simp [Instr.head], fun k p hk => ?_⟩
      rcases k with _ | _ | k <;> simp [Instr.params] at hk <;> simp [← hk, hx, hy]
    | inp | out | arb =>
      simp only [Head.build, Machine.bind_ok, pure, Except.pure, Except.ok.injEq]
      rintro ⟨x, hx, rfl⟩
      refine ⟨by simp [Instr.head], fun k p hk => ?_⟩
      rcases k with _ | k <;> simp [Instr.params] at hk
      simp [← hk, hx]
    | hlt =>
      rintro ⟨⟩
      exact ⟨rfl, fun k p hk => by simp [Instr.params] at hk⟩
  · rintro ⟨rfl, hg⟩
    cases i with
    | add a b d | mul a b d | lt a b d | eq a b d =>
      simp [Instr.head, Head.build, Machine.bind_ok, hg 0 a rfl, hg 1 b rfl, hg 2 d rfl, pure, Except.pure]
    | jt a b | jf a b => simp [Instr.head, Head.build, Machine.bind_ok, hg 0 a rfl, hg 1 b rfl, pure, Except.pure]
    | inp a | out a | arb a => simp [Instr.head, Head.build, Machine.bind_ok, hg 0 a rfl, pure, Except.pure]
    | hlt => rfl

end Sys2Proof
end

section
/-! PROOFS. Decoding from a list of words and from memory, and the step that runs what stands or was placed at `ip`. -/

namespace Sys2Proof

theorem wordAt_ok {ws : List Word} {k : Nat} {w : Word} : wordAt ws k = .ok w ↔ ws[k]? = some w := by
  unfold wordAt
  cases ws[k]? <;> simp

/-- A list decodes to an instruction exactly when its first word is decoded to the instruction word's parts and the operand
words follow. -/
theorem decode_ok {ws rest : List Word} {i : Instr} :
    decode ws = .ok (i, rest) ↔
      ∃ w, ws[0]? = some w ∧ decodeHead w = .ok i.head ∧ (∀ k p, i.params[k]? = some p → ws[k + 1]? = some p.word) ∧
        rest = ws.drop i.length := by
  constructor
  · intro h
    unfold decode at h
    split at h
    · cases h
    · rename_i w hw
      split at h
      · cases h
      · rename_i hd hh
        split at h
        · cases h
        · rename_i j hj
          cases h
          obtain ⟨rfl, hp⟩ := Head.build_ok.mp hj
          exact ⟨w, wordAt_ok.mp hw, hh, fun k p hk => wordAt_ok.mp (hp k p hk), rfl⟩
  · rintro ⟨w, hw, hh, hp, rfl⟩
    have hb : i.head.build (wordAt ws) = .ok i := Head.build_ok.mpr ⟨rfl, fun k p hk => wordAt_ok.mpr (hp k p hk)⟩
    simp only [decode, wordAt_ok.mpr hw, hh, hb]

/-- An instruction has as many parameters as its opcode's arity. -/
theorem Instr.length_params (i : Instr) : i.params.length = i.opcode.arity := by
  cases i <;> rfl

/-- The words of an instruction decode to it, and the words after them are left. -/
theorem decode_encode_append (i : Instr) (rest : List Word) : decode (encode i ++ rest) = .ok (i, rest) := by
  refine decode_ok.mpr ⟨i.head.encode, rfl, decodeHead_encode i.head, fun k p hk => ?_, ?_⟩
  · obtain ⟨hlt, -⟩ := List.getElem?_eq_some_iff.mp hk
    have : (i.params.map Param.word ++ rest)[k]? = some p.word := by
      rw [List.getElem?_append_left (by simpa using hlt), List.getElem?_map, hk, Option.map_some]
    exact this
  · have : (encode i).length = i.length := by
      simp [encode, Instr.length, Instr.length_params, Nat.add_comm]
    rw [← this, List.drop_left]

theorem decodeTableWord_eq_some {nbits w : Nat} {i : Instr} (h : decodeTableWord nbits w = some i) :
    ∃ rest, decode (tableWords nbits w) = .ok (i, rest) := by
  unfold decodeTableWord at h
  split at h
  · rename_i j rest hd
    cases h
    exact ⟨rest, hd⟩
  · cases h

end Sys2Proof

namespace Sys2Proof.Machine

/-- `Decode(ip)` gives an instruction exactly when the words at `ip` are those of its parts (R307). -/
theorem fetch_ok {s : State} {i : Instr} :
    fetch s = .ok i ↔
      ∃ w, memRead s.ip.toInt .fetch s = .ok w ∧ decodeHead w = .ok i.head ∧
        ∀ k p, i.params[k]? = some p → memRead (s.ip.toInt + (k + 1 : Nat)) .operand s = .ok p.word := by
  constructor
  · intro h
    unfold fetch at h
    split at h
    · cases h
    · rename_i w hw
      split at h
      · cases h
      · rename_i hd hh
        obtain ⟨rfl, hp⟩ := Head.build_ok.mp h
        exact ⟨w, hw, hh, hp⟩
  · rintro ⟨w, hw, hh, hp⟩
    simp only [fetch, hw, hh]
    exact Head.build_ok.mpr ⟨rfl, hp⟩

/-- The words `ws` stand in memory from `ip` on, at addresses that exist. -/
def State.wordsAtIp (s : State) (ws : List Word) : Prop :=
  ∀ (k : Nat) (w : Word), ws[k]? = some w → s.inBounds (s.ip.toInt + k) ∧ s.mem.read (s.ip.toInt + k).toNat = w

/-- What memory holds at `ip` is decoded as a list of the same words is. -/
theorem fetch_of_decode {s : State} {ws rest : List Word} {i : Instr} (h : s.wordsAtIp ws) (hd : decode ws = .ok (i, rest)) :
    fetch s = .ok i := by
  obtain ⟨w, hw, hh, hp, -⟩ := decode_ok.mp hd
  refine fetch_ok.mpr ⟨w, memRead_ok.mpr (by simpa using h 0 w hw), hh, fun k p hk => ?_⟩
  exact memRead_ok.mpr (h (k + 1) p.word (hp k p hk))

/-- In `Ready`, the step runs the instruction that `Decode(ip)` gives. -/
theorem step_of_fetch {s : State} {i : Instr} (hp : s.phase = .ready) (hf : fetch s = .ok i) : step s = exec i s := by
  rw [step_ready hp, tauStep, hf]

/-- Settles O13: decoding inverts encoding, and memory at `ip` is decoded as the same words in a list are. -/
theorem stepRunsTheInstructionAtIp : Obligations.StepRunsTheInstructionAtIp := by
  intro s i hp h
  have hd := decode_encode_append i []
  rw [List.append_nil] at hd
  exact step_of_fetch hp (fetch_of_decode (ws := encode i) h hd)

/-- What the host observes: the memory and the trace of a halted core, nothing in any other phase (R481). -/
theorem observe_iff (s : State) :
    (s.phase = .halted → s.observe = some ⟨s.mem, s.trace⟩) ∧ (s.phase ≠ .halted → s.observe = none) := by
  unfold State.observe
  cases s.phase <;> simp

/-- Settles O38: the internal step of HLT offers `Shutdown`, whose acceptance halts. -/
theorem haltEndsTheRun : Obligations.HaltEndsTheRun := by
  refine ⟨fun s k hp hi hk => ?_, observe_iff⟩
  have h1 : step s = .next (s.setPhase .offerShutdown) := stepRunsTheInstructionAtIp s .hlt hp hi
  have h2 : step (s.setPhase .offerShutdown) =
      .next { s with phase := .halted, accepts := k, trace := s.trace ++ [.send .shutdown] } :=
    (step_offer rfl).trans (offerStep_accepts .shutdown hk)
  refine ⟨_, ?_, rfl, (observe_iff _).1 rfl, step_halted rfl⟩
  rw [steps_succ 1 h1, steps_one, h2]

/-! Placing an instruction for the next fetch (log 11). -/

/-- Placing words changes memory only. -/
theorem placeWords_eq (a : Nat) (ws : List Word) (s : State) :
    State.placeWords a ws s = { s with mem := (State.placeWords a ws s).mem } := by
  induction ws generalizing a s with
  | nil => rfl
  | cons w ws ih =>
    rw [State.placeWords]
    split
    · exact ih (a + 1) { s with mem := s.mem.write a w }
    · exact ih (a + 1) s

/-- Words placed from `a` on leave the words below `a`. -/
theorem placeWords_read_below {n a : Nat} (ws : List Word) (s : State) (h : n < a) :
    (State.placeWords a ws s).mem.read n = s.mem.read n := by
  induction ws generalizing a s with
  | nil => rfl
  | cons w ws ih =>
    rw [State.placeWords, ih _ (Nat.lt_succ_of_lt h)]
    split
    · exact Memory.read_write_other s.mem w (Nat.ne_of_lt h)
    · rfl

/-- Words placed where they fit are the ones memory then holds there. -/
theorem placeWords_read {a k : Nat} {ws : List Word} {w : Word} {s : State} (hm : s.mem.wf)
    (hfit : a + ws.length ≤ s.config.arenaSize) (hk : ws[k]? = some w) :
    (State.placeWords a ws s).mem.read (a + k) = w := by
  induction ws generalizing a k s with
  | nil => cases hk
  | cons u ws ih =>
    rw [List.length_cons] at hfit
    rw [State.placeWords, if_pos (by omega)]
    cases k with
    | zero =>
      cases hk
      exact (placeWords_read_below ws _ (Nat.lt_succ_self a)).trans (Memory.read_write_same s.mem a _ hm)
    | succ k =>
      rw [← Nat.add_assoc, Nat.add_right_comm]
      exact ih (Memory.write_wf a u hm) (by show a + 1 + ws.length ≤ s.config.arenaSize; omega) hk

/-- The place chosen for `n` words has room for them if memory has. -/
theorem fetchBase_fits {n : Nat} {s : State} (h : n ≤ s.config.arenaSize) : s.fetchBase n + n ≤ s.config.arenaSize := by
  unfold State.fetchBase
  split <;> omega

/-- Words placed for the next fetch stand at `ip`. -/
theorem withWords_wordsAtIp {ws : List Word} {s : State} (hm : s.mem.wf) (hfit : ws.length ≤ s.config.arenaSize) :
    (s.withWords ws).wordsAtIp ws := by
  intro k w hk
  have hb := fetchBase_fits hfit
  have hle := s.config.arenaLe
  obtain ⟨hlt, -⟩ := List.getElem?_eq_some_iff.mp hk
  have hip : (s.withWords ws).ip.toInt = s.fetchBase ws.length := by
    rw [State.withWords, placeWords_eq]
    exact Word.toInt_ofNat (by omega)
  have hcfg : (s.withWords ws).config = s.config := by
    rw [State.withWords, placeWords_eq]
  refine ⟨?_, ?_⟩
  · rw [State.inBounds, hip, hcfg]
    omega
  · rw [hip]
    exact placeWords_read (s := { s with ip := _, phase := .ready }) hm hb hk

/-- Settles O55: the four words of the number stand at `ip`, where they decode as they do in a list. -/
theorem placedInstructionRuns : Obligations.PlacedInstructionRuns := by
  intro s nbits w i hsize hm hd
  obtain ⟨rest, hd⟩ := decodeTableWord_eq_some hd
  refine step_of_fetch ?_ (fetch_of_decode (withWords_wordsAtIp hm hsize) hd)
  rw [State.withFetchWord, State.withWords, placeWords_eq]

end Sys2Proof.Machine
end

section
/-! PROOFS. The relative base: who writes it and who reads it (R105). -/

namespace Sys2Proof.Machine

/-- A parameter that is not Relative has the same address whatever `rb` holds. -/
theorem effAddr_of_not_relative {p : Param} (hp : p.mode ≠ .relative) (rb rb' : Word) : effAddr rb p = effAddr rb' p := by
  cases p with
  | pos | imm => rfl
  | rel => exact absurd rfl hp

theorem resolveSrc_setRb {p : Param} (hp : p.mode ≠ .relative) (r : Word) (s : State) :
    resolveSrc p (s.setRb r) = resolveSrc p s := by
  cases p with
  | pos | imm => rfl
  | rel => exact absurd rfl hp

/-- The outcome of a store carries `rb` along where the destination is not Relative. -/
theorem writeDst_setRb {p : Param} (hp : p.mode ≠ .relative) (k : Nat) (v r : Word) (s : State) :
    writeDst p k v (s.setRb r) = (writeDst p k v s).map (State.setRb r) := by
  unfold writeDst
  rw [effAddr_of_not_relative hp (s.setRb r).rb s.rb]
  cases effAddr s.rb p with
  | none => rfl
  | some a =>
    by_cases h : s.inBounds a
    · simp only [memWrite]
      rw [if_pos h, if_pos (show (s.setRb r).inBounds a from h)]
      rfl
    · simp only [memWrite]
      rw [if_neg h, if_neg (show ¬ (s.setRb r).inBounds a from h)]
      rfl

/-- What an instruction ends with carries `rb` along if what it computed does. -/
theorem settle_setRb (r : Word) (s : State) (x : Except FaultDetail State) :
    (s.setRb r).settle (x.map (State.setRb r)) = (s.settle x).setRb r := by
  cases x <;> rfl

theorem alu_setRb (f : Word → Word → Except FaultDetail Word) {a b d : Param} (ha : a.mode ≠ .relative)
    (hb : b.mode ≠ .relative) (hd : d.mode ≠ .relative) (r : Word) (s : State) :
    alu f a b d (s.setRb r) = (alu f a b d s).map (State.setRb r) := by
  unfold alu
  rw [resolveSrc_setRb ha, resolveSrc_setRb hb]
  cases resolveSrc a s with
  | error => rfl
  | ok x =>
    cases resolveSrc b s with
    | error => rfl
    | ok y =>
      simp only [bind, Except.bind]
      cases f x y with
      | error => rfl
      | ok v =>
        simp only [writeDst_setRb hd]
        cases writeDst d 3 v s <;> rfl

theorem condJump_setRb (taken : Word → Bool) {c g : Param} (hc : c.mode ≠ .relative) (hg : g.mode ≠ .relative) (r : Word)
    (s : State) : condJump taken c g (s.setRb r) = (condJump taken c g s).map (State.setRb r) := by
  unfold condJump
  rw [resolveSrc_setRb hc, resolveSrc_setRb hg]
  cases resolveSrc c s with
  | error => rfl
  | ok x =>
    cases resolveSrc g s with
    | error => rfl
    | ok y =>
      simp only [bind, Except.bind]
      cases taken x <;> rfl

/-- An instruction other than ARB without Relative operands does the same whatever `rb` holds, and carries it along. -/
theorem exec_setRb {i : Instr} {s t : State} (r : Word) (harb : i.opcode ≠ .arb) (hp : ∀ p ∈ i.params, p.mode ≠ .relative)
    (h : exec i s = .next t) : exec i (s.setRb r) = .next (t.setRb r) := by
  cases i with
  | add a b d | mul a b d | lt a b d | eq a b d =>
    cases h
    exact congrArg _ ((congrArg _ (alu_setRb _ (hp a (by simp [Instr.params])) (hp b (by simp [Instr.params]))
      (hp d (by simp [Instr.params])) r s)).trans (settle_setRb r s _))
  | jt c g | jf c g =>
    cases h
    exact congrArg _ ((congrArg _ (condJump_setRb _ (hp c (by simp [Instr.params])) (hp g (by simp [Instr.params]))
      r s)).trans (settle_setRb r s _))
  | inp | hlt =>
    cases h
    rfl
  | out p =>
    cases h
    simp only [exec, execOut, resolveSrc_setRb (hp p (by simp [Instr.params]))]
    cases resolveSrc p s <;> rfl
  | arb => exact absurd rfl harb

/-- Only the internal step of an ARB writes `rb`; decoding faults and port steps leave it. -/
theorem step_rb {s t : State} (h : step s = .next t) : t.rb = s.rb ∨
    ∃ p v, s.phase = .ready ∧ fetch s = .ok (.arb p) ∧ resolveSrc p s = .ok v ∧ t.rb.toInt = s.rb.toInt + v.toInt := by
  rcases step_cases h with ⟨hp, i, hf, hi⟩ | ⟨-, d, -, rfl⟩ | ⟨m, k, -, -, rfl⟩ | ⟨d, a, as, -, -, rfl⟩
  · rcases exec_rb hi with hr | ⟨p, v, rfl, hv, hr⟩
    · exact .inl hr
    · exact .inr ⟨p, v, hp, hf, hv, hr⟩
  · exact .inl rfl
  · exact .inl (accept_rb ..)
  · exact .inl (receive_keeps d a _).2.1

theorem accept_setRb (m : Message) (r : Word) (s : State) : State.accept m (s.setRb r) = (s.accept m).setRb r := by
  obtain ⟨config, mem, ip, rb, phase, accepts, answers, trace⟩ := s
  cases phase <;> rfl

/-- Settles O24: ARB's is the one internal step that sets `rb`, and every other use of `rb` is a Relative operand's. -/
theorem relativeBaseWritersAndReaders : Obligations.RelativeBaseWritersAndReaders := by
  refine ⟨fun s t => step_rb, fun s p v hv hw => ?_, fun s r hb => memRead_ok.mpr ⟨hb, rfl⟩,
    fun s t i r harb hp h => exec_setRb r harb hp h, fun s d a r hd => ?_, fun s r => fetch_congr rfl rfl rfl,
    fun s m r => accept_setRb m r s, fun _ _ _ _ => rfl, rfl⟩
  · exact ⟨_, exec_arb hv hw, Word.toInt_ofInt hw, rfl⟩
  · have hans : (s.receive d a).answers = s.answers := (receive_keeps d a s).2.2.2.1
    exact (receive_setRb_setAnswers a s.answers (effAddr_of_not_relative hd r s.rb)).trans (by rw [← hans])

end Sys2Proof.Machine
end

section
/-! PROOFS. Memory: the canonical form is one per memory and every step keeps it (R200, R207), and what is stored is what the
next fetch reads (R211). -/

namespace Sys2Proof.Machine

/-- A canonical memory lists exactly the addresses whose word is not 0, each with its word. -/
theorem Memory.mem_iff_read {m : Memory} (h : m.wf) (c : Nat × Word) :
    c ∈ m ↔ c.2 ≠ Memory.unlisted ∧ m.read c.1 = c.2 := by
  induction m with
  | nil => simp [Memory.read, eq_comm]
  | cons e m ih =>
    obtain ⟨hp, hz⟩ := h
    obtain ⟨hlt, hp⟩ := List.pairwise_cons.mp hp
    have ih := ih ⟨hp, fun c hc => hz c (List.mem_cons_of_mem e hc)⟩
    rw [List.mem_cons, Memory.read]
    by_cases hc : c.1 = e.1
    · have hnot : c ∉ m := fun hm => (hlt c hm).ne' hc
      have he : e.2 ≠ Memory.unlisted := hz e List.mem_cons_self
      rw [if_pos hc, or_iff_left hnot]
      exact ⟨by rintro rfl; exact ⟨he, rfl⟩, fun h => Prod.ext hc h.2.symm⟩
    · rw [if_neg hc, or_iff_right fun h => hc (congrArg Prod.fst h)]
      exact ih

/-- Settles O51: canonical memories that read alike list the same cells, and strictly rising lists with the same elements are
equal. -/
theorem canonicalMemoriesAreEqual : Obligations.CanonicalMemoriesAreEqual := by
  intro m n hm hn h
  have : Std.Antisymm fun c d : Nat × Word => c.1 < d.1 := ⟨fun _ _ h h' => absurd h' h.asymm⟩
  have : Std.Irrefl fun c d : Nat × Word => c.1 < d.1 := ⟨fun c => Nat.lt_irrefl c.1⟩
  exact hm.1.eq_of_mem_iff hn.1 fun c => by rw [Memory.mem_iff_read hm, Memory.mem_iff_read hn, h]

/-- A store at an address that exists keeps the memory invariant. -/
theorem write_memoryInv {s t : State} {c : Int} {v : Word} (h : s.MemoryInv) (hb : s.inBounds c)
    (hm : t.mem = s.mem.write c.toNat v) (hc : t.config = s.config) : t.MemoryInv := by
  obtain ⟨hwf, hlt⟩ := h
  obtain ⟨h0, h1⟩ := hb
  rw [State.MemoryInv, hm, hc]
  exact ⟨Memory.write_wf _ v hwf, Memory.write_lt hlt (by omega)⟩

/-- The memory invariant looks at memory and the parameter only. -/
theorem memoryInv_congr {s t : State} (hm : t.mem = s.mem) (hc : t.config = s.config) (h : s.MemoryInv) : t.MemoryInv := by
  rwa [State.MemoryInv, hm, hc]

theorem exec_keeps_memoryInv {i : Instr} {s t : State} (hs : s.MemoryInv) (h : exec i s = .next t) : t.MemoryInv := by
  rcases exec_cases h with ⟨d, rfl⟩ | ⟨d, v, c, -, -, -, hb, rfl⟩ | ⟨c, g, y, -, -, rfl | rfl⟩ | ⟨p, v, -, -, -, rfl⟩ |
    ⟨d, -, rfl⟩ | ⟨p, v, -, -, rfl⟩ | ⟨-, rfl⟩
  case inr.inl => exact write_memoryInv hs hb rfl rfl
  all_goals exact memoryInv_congr rfl rfl hs

theorem receive_keeps_memoryInv {s : State} (d : Param) (a : Answer) (hs : s.MemoryInv) : (s.receive d a).MemoryInv := by
  rcases receive_cases d a s with ⟨v, c, -, -, hb, ht⟩ | ⟨e, ht⟩ <;> rw [ht]
  · exact write_memoryInv hs hb rfl rfl
  · exact memoryInv_congr rfl rfl hs

/-- Settles O43, by the cases of a step: only an instruction's internal step and an answered IN store, and they store at
addresses that exist. -/
theorem stepKeepsMemoryInv : Obligations.StepKeepsMemoryInv := by
  intro s t hs h
  rcases step_cases h with ⟨-, i, -, hi⟩ | ⟨-, d, -, rfl⟩ | ⟨m, k, -, -, rfl⟩ | ⟨d, a, as, -, -, rfl⟩
  · exact exec_keeps_memoryInv hs hi
  · exact memoryInv_congr rfl rfl hs
  · exact memoryInv_congr (accept_mem ..) (accept_config ..) hs
  · exact receive_keeps_memoryInv d a (memoryInv_congr rfl rfl hs)

/-- In `Ready`, the step raises the fault that `Decode(ip)` ends with. -/
theorem step_of_fetch_error {s : State} {d : FaultDetail} (hp : s.phase = .ready) (hf : fetch s = .error d) :
    step s = .next (s.raise d) := by
  rw [step_ready hp, tauStep, hf]

/-- A word at `ip` that is no instruction word faults, and is the record's word. -/
theorem step_malformed {s : State} {w : Word} {m : Malformed} (hp : s.phase = .ready)
    (hw : memRead s.ip.toInt .fetch s = .ok w) (hm : decodeHead w = .error m) :
    step s = .next { s with phase := .faulted ⟨s.ip, some w, .malformedInstruction m⟩ } := by
  have hf : fetch s = .error (.malformedInstruction m) := by simp only [fetch, hw, hm]
  obtain ⟨hb, hr⟩ := memRead_ok.mp hw
  rw [step_of_fetch_error hp hf, raise_eq, fetchedWord_of_inBounds hb, hr]

/-- An arithmetic or comparison instruction that does not fault stores its result and goes on by 4. -/
theorem exec_alu_store {e : (Param → Param → Param → Instr) × (Word → Word → Except FaultDetail Word)} (he : e ∈ aluTable)
    {s : State} {a b d : Param} {x y r : Word} {c : Int} (hx : resolveSrc a s = .ok x) (hy : resolveSrc b s = .ok y)
    (hr : e.2 x y = .ok r) (hd : effAddr s.rb d = some c) (hb : s.inBounds c) :
    exec (e.1 a b d) s = .next { s with mem := s.mem.write c.toNat r, ip := s.ip + 4#64 } := by
  rw [exec_aluTable he, alu_ok.mpr ⟨x, y, r, c, hx, hy, hr, hd, hb, rfl⟩, State.settle_ok]

/-- Settles O50: the store is at the `ip` of the next state, and canonical memory reads back what was written. -/
theorem storeIsSeenByTheNextFetch : Obligations.StoreIsSeenByTheNextFetch := by
  intro s t a b d x y r e he hm hip hx hy hr hd hb h
  have hread : memRead t.ip.toInt .fetch t = .ok r := by
    obtain rfl := Host.Outcome.next.inj ((exec_alu_store he hx hy hr hd hb).symm.trans h)
    have hip4 : (s.ip + 4#64).toInt = s.ip.toInt + 4 := toInt_ip_add hip (Nat.le_refl 4)
    refine memRead_ok.mpr ?_
    rw [hip4]
    exact ⟨hb, Memory.read_write_same s.mem _ r hm⟩
  exact ⟨hread, fun hp m hmal => step_malformed hp hread hmal⟩

end Sys2Proof.Machine
end

section
/-! PROOFS. The accesses that fault: outside memory (R207) and a write to an Immediate destination (R224). -/

namespace Sys2Proof

/-- The lowest operand word that cannot be had is the one reported (R307). -/
theorem Head.build_error {ε : Type} {h : Head} {get : Nat → Except ε Word} {k : Nat} {e : ε} (hk : 1 ≤ k)
    (hka : k ≤ h.opcode.arity) (hlow : ∀ j, 1 ≤ j → j < k → ∃ w, get j = .ok w) (he : get k = .error e) :
    h.build get = .error e := by
  cases h with
  | inp | out | arb =>
    obtain rfl : k = 1 := Nat.le_antisymm hka hk
    simp [Head.build, he, bind, Except.bind]
  | jt | jf =>
    obtain rfl | rfl : k = 1 ∨ k = 2 := by simp only [Head.opcode, Opcode.arity] at hka; omega
    · simp [Head.build, he, bind, Except.bind]
    · obtain ⟨x, hx⟩ := hlow 1 (by decide) (by decide)
      simp [Head.build, hx, he, bind, Except.bind]
  | add | mul | lt | eq =>
    obtain rfl | rfl | rfl : k = 1 ∨ k = 2 ∨ k = 3 := by simp only [Head.opcode, Opcode.arity] at hka; omega
    · simp [Head.build, he, bind, Except.bind]
    · obtain ⟨x, hx⟩ := hlow 1 (by decide) (by decide)
      simp [Head.build, hx, he, bind, Except.bind]
    · obtain ⟨x, hx⟩ := hlow 1 (by decide) (by decide)
      obtain ⟨y, hy⟩ := hlow 2 (by decide) (by decide)
      simp [Head.build, hx, hy, he, bind, Except.bind]
  | hlt => exact absurd (hk.trans hka) (by decide)

end Sys2Proof

namespace Sys2Proof.Machine

/-- Settles O21: a source with an address is one memory read. -/
theorem sourceResolution : Obligations.SourceResolution :=
  fun _ _ _ _ => ⟨fun hb => memRead_ok.mpr ⟨hb, rfl⟩, fun hb => memRead_error.mpr ⟨hb, rfl⟩, rfl,
    fun hb => memRead_ok.mpr ⟨hb, rfl⟩, fun hb => memRead_error.mpr ⟨hb, rfl⟩⟩

/-- A source faults exactly when it has an address and the address does not exist. -/
theorem resolveSrc_error {p : Param} {s : State} {e : FaultDetail} :
    resolveSrc p s = .error e ↔ ∃ a, effAddr s.rb p = some a ∧ ¬ s.inBounds a ∧ .outOfBoundsAccess a .read = e := by
  cases p with
  | pos | rel => simp [resolveSrc, effAddr, memRead_error]
  | imm => simp [resolveSrc, effAddr]

/-- A write faults exactly when its destination has no address, or one that does not exist (R224). -/
theorem writeDst_error {p : Param} {k : Nat} {v : Word} {s : State} {e : FaultDetail} :
    writeDst p k v s = .error e ↔
      (effAddr s.rb p = none ∧ .invalidWriteTarget k = e) ∨
        ∃ a, effAddr s.rb p = some a ∧ ¬ s.inBounds a ∧ .outOfBoundsAccess a .write = e := by
  unfold writeDst
  cases effAddr s.rb p <;> simp [memWrite_error]

/-- An instruction that starts with its two sources, one of which faults, raises the fault of the first that does. -/
theorem settle_two_sources_error {a b p : Param} {s : State} {e : FaultDetail}
    (f : Word → Word → Except FaultDetail State) (hp : p ∈ [a, b]) (he : resolveSrc p s = .error e) :
    ∃ q ∈ [a, b], ∃ e', resolveSrc q s = .error e' ∧
      s.settle (resolveSrc a s >>= fun x => resolveSrc b s >>= fun y => f x y) = s.raise e' := by
  cases ha : resolveSrc a s with
  | error e' => exact ⟨a, by simp, e', ha, rfl⟩
  | ok x =>
    have hpb : p = b := by
      rcases (by simpa using hp) with rfl | h
      · cases ha.symm.trans he
      · exact h
    rw [hpb] at he
    exact ⟨b, by simp, e, he, by rw [he]; rfl⟩

/-- An instruction one of whose sources faults raises a fault of one of its sources. -/
theorem exec_source_error {i : Instr} {p : Param} {s : State} {e : FaultDetail} (hp : p ∈ i.sources)
    (he : resolveSrc p s = .error e) :
    ∃ q ∈ i.sources, ∃ e', resolveSrc q s = .error e' ∧ exec i s = .next (s.raise e') := by
  cases i with
  | add | mul | lt | eq | jt | jf =>
    obtain ⟨q, hq, e', hq', ht⟩ := settle_two_sources_error _ hp he
    exact ⟨q, hq, e', hq', congrArg _ ht⟩
  | out q | arb q =>
    obtain rfl : p = q := by simpa [Instr.sources] using hp
    refine ⟨p, hp, e, he, ?_⟩
    simp only [exec, execOut, execArb, he]
    rfl
  | inp | hlt => cases hp

/-- An arithmetic or comparison instruction with a result raises the fault of its write. -/
theorem exec_alu_write_error {e : (Param → Param → Param → Instr) × (Word → Word → Except FaultDetail Word)} (he : e ∈ aluTable)
    {s : State} {a b d : Param} {x y r : Word} {f : FaultDetail} (hx : resolveSrc a s = .ok x) (hy : resolveSrc b s = .ok y)
    (hr : e.2 x y = .ok r) (hw : writeDst d 3 r s = .error f) : exec (e.1 a b d) s = .next (s.raise f) := by
  have : alu e.2 a b d s = .error f := by
    simp only [alu, hx, hy, bind, Except.bind, hr, hw]
  rw [exec_aluTable he, this, State.settle_error]

/-- A waiting IN whose answer cannot be stored faults, with the answer consumed (R611). -/
theorem step_awaitIn_fault {s : State} {d : Param} {a : Answer} {as : List Answer} {e : FaultDetail}
    (hp : s.phase = .awaitIn d) (ha : s.answers = a :: as)
    (he : storeAnswer d a ({ s with answers := as }.logPort (.recv a)) = .error e) :
    step s = .next { s with answers := as, trace := s.trace ++ [.recv a],
                            phase := .faulted ⟨s.ip, s.fetchedWord, e⟩ } := by
  rw [step_awaitIn hp, awaitStep_answers d ha, receive_fault he]
  rfl

/-- Settles O23: an Immediate destination has no address, so the write is what faults. -/
theorem immediateDestinationFaults : Obligations.ImmediateDestinationFaults := by
  refine ⟨fun s a b v x y r e he hx hy hr => ?_, fun s v w as hp ha => ?_, fun _ => rfl, by decide⟩
  · exact exec_alu_write_error he hx hy hr (writeDst_error.mpr (.inl ⟨rfl, rfl⟩))
  · exact step_awaitIn_fault hp ha (storeAnswer_data_error.1 rfl)

/-- Settles O22, access by access. -/
theorem outOfBoundsAccessesFault : Obligations.OutOfBoundsAccessesFault := by
  refine ⟨fun s hp hb => ?_, fun s w h k hp hip hw hh hk hka hlow hb => ?_, fun s i p c hps hc hb => ?_,
    fun s a b d x y r c e he hx hy hr hd hb => ?_, fun s d v as c hp ha hd hb => ?_, fun _ _ => rfl⟩
  · have hf : fetch s = .error (.outOfBoundsAccess s.ip.toInt .fetch) := by
      simp only [fetch, memRead_error.mpr ⟨hb, rfl⟩]
    rw [step_of_fetch_error hp hf, raise_eq, State.fetchedWord, if_neg hb]
  · have hf : fetch s = .error (.outOfBoundsAccess (s.ip.toInt + k) .operand) := by
      rw [fetch_of_inBounds hip hw, hh]
      exact Head.build_error hk hka (fun j h1 h2 => ⟨_, memRead_ok.mpr ⟨hlow j h1 h2, rfl⟩⟩) (memRead_error.mpr ⟨hb, rfl⟩)
    rw [step_of_fetch_error hp hf, raise_eq, fetchedWord_of_inBounds hip, hw]
  · obtain ⟨q, hq, e, he, ht⟩ := exec_source_error hps (resolveSrc_error.mpr ⟨c, hc, hb, rfl⟩)
    obtain ⟨a, ha, hab, rfl⟩ := resolveSrc_error.mp he
    exact ⟨q, hq, a, ha, hab, ht⟩
  · exact exec_alu_write_error he hx hy hr (writeDst_error.mpr (.inr ⟨c, hd, hb, rfl⟩))
  · exact step_awaitIn_fault hp ha (storeAnswer_data_error.2 c hd hb)

end Sys2Proof.Machine
end

section
/-! PROOFS. What an instruction word decodes to, and why a word is refused (R302, R303, R307 to R312). -/

namespace Sys2Proof

theorem Head.length_modes (h : Head) : h.modes.length = h.opcode.arity := by
  cases h <;> rfl

/-- A parameter that is present has its mode's digit. -/
theorem Head.getElem?_modes_toDigit {h : Head} {k : Nat} (h1 : 1 ≤ k) (hk : k ≤ h.opcode.arity) :
    (h.modes[k - 1]?).map Mode.toDigit = some (h.modeDigit k) := by
  have hlt : k - 1 < h.modes.length := by rw [h.length_modes]; omega
  rw [Head.modeDigit, List.getElem?_eq_getElem hlt, Option.map_some]

/-! The digits that an instruction word is decoded from. -/

theorem decodeModes1_ok {w : Nat} {mk : Mode → Head} {h : Head} :
    decodeModes1 w mk = .ok h ↔ ∃ a : Mode, digit w 2 = a.toDigit ∧ w / 10 ^ 3 = 0 ∧ mk a = h := by
  have : decodeModes1 w mk = decodeMode w 1 >>= fun a => checkExcess w 1 (mk a) := by
    unfold decodeModes1
    cases decodeMode w 1 <;> rfl
  simp only [this, Machine.bind_ok, decodeMode_ok, checkExcess_ok, digit]

theorem decodeModes2_ok {w : Nat} {mk : Mode → Mode → Head} {h : Head} :
    decodeModes2 w mk = .ok h ↔
      ∃ a : Mode, digit w 2 = a.toDigit ∧ ∃ b : Mode, digit w 3 = b.toDigit ∧ w / 10 ^ 4 = 0 ∧ mk a b = h := by
  have : decodeModes2 w mk =
      decodeMode w 1 >>= fun a => decodeMode w 2 >>= fun b => checkExcess w 2 (mk a b) := by
    unfold decodeModes2
    cases decodeMode w 1
    · rfl
    · cases decodeMode w 2 <;> rfl
  simp only [this, Machine.bind_ok, decodeMode_ok, checkExcess_ok, digit]

theorem decodeModes3_ok {w : Nat} {mk : Mode → Mode → Mode → Head} {h : Head} :
    decodeModes3 w mk = .ok h ↔
      ∃ a : Mode, digit w 2 = a.toDigit ∧ ∃ b : Mode, digit w 3 = b.toDigit ∧ ∃ c : Mode, digit w 4 = c.toDigit ∧
        w / 10 ^ 5 = 0 ∧ mk a b c = h := by
  have : decodeModes3 w mk =
      decodeMode w 1 >>= fun a => decodeMode w 2 >>= fun b => decodeMode w 3 >>= fun c => checkExcess w 3 (mk a b c) := by
    unfold decodeModes3
    cases decodeMode w 1
    · rfl
    · cases decodeMode w 2
      · rfl
      · cases decodeMode w 3 <;> rfl
  simp only [this, Machine.bind_ok, decodeMode_ok, checkExcess_ok, digit]

/-- The digits of the word an opcode's modes are decoded from are the modes' digits, and none follows the last. -/
theorem digits_of_decodeModes {op : Opcode} {w : Nat} {h : Head} (hd : decodeModes op w = .ok h) :
    h.opcode = op ∧ (∀ k, 1 ≤ k → k ≤ op.arity → digit w (k + 1) = h.modeDigit k) ∧ w / 10 ^ (op.arity + 2) = 0 := by
  cases op with
  | add | mul | lt | eq =>
    obtain ⟨a, ha, b, hb, c, hc, hx, rfl⟩ := decodeModes3_ok.mp hd
    refine ⟨rfl, fun k h1 hk => ?_, hx⟩
    obtain rfl | rfl | rfl : k = 1 ∨ k = 2 ∨ k = 3 := by simp only [Opcode.arity] at hk; omega
    exacts [ha, hb, hc]
  | jt | jf =>
    obtain ⟨a, ha, b, hb, hx, rfl⟩ := decodeModes2_ok.mp hd
    refine ⟨rfl, fun k h1 hk => ?_, hx⟩
    obtain rfl | rfl : k = 1 ∨ k = 2 := by simp only [Opcode.arity] at hk; omega
    exacts [ha, hb]
  | inp | out | arb =>
    obtain ⟨a, ha, hx, rfl⟩ := decodeModes1_ok.mp hd
    refine ⟨rfl, fun k h1 hk => ?_, hx⟩
    obtain rfl : k = 1 := Nat.le_antisymm hk h1
    exact ha
  | hlt =>
    obtain ⟨hx, rfl⟩ := checkExcess_ok.mp hd
    exact ⟨rfl, fun k h1 hk => absurd (h1.trans hk) (by decide), hx⟩

/-- A digit above all the digits of a number is 0. -/
theorem digit_of_div_eq_zero {w n k : Nat} (hx : w / 10 ^ n = 0) (hk : n ≤ k) : digit w k = 0 := by
  obtain ⟨j, rfl⟩ := Nat.exists_eq_add_of_le hk
  rw [digit, Nat.pow_add, ← Nat.div_div_eq_div_mul, hx, Nat.zero_div, Nat.zero_mod]

/-- Where no digit follows those of the parameters, every digit is a mode digit, absent ones being 0 (R303). -/
theorem digit_eq_modeDigit {w k : Nat} {h : Head}
    (hdig : ∀ k, 1 ≤ k → k ≤ h.opcode.arity → digit w (k + 1) = h.modeDigit k)
    (hx : w / 10 ^ (h.opcode.arity + 2) = 0) (h1 : 1 ≤ k) : digit w (k + 1) = h.modeDigit k := by
  rcases Nat.lt_or_ge h.opcode.arity k with hk | hk
  · rw [Head.modeDigit_of_arity_lt hk]
    exact digit_of_div_eq_zero hx (by omega)
  · exact hdig k h1 hk

/-- A word decodes to the parts whose opcode and mode digits are its own, if no digit follows them (R302, R303, R311). -/
theorem decodeHead_ok {w : Word} {h : Head} :
    decodeHead w = .ok h ↔ 0 ≤ w.toInt ∧ w.toNat % 100 = h.opcode.code ∧
      (∀ k, 1 ≤ k → k ≤ h.opcode.arity → digit w.toNat (k + 1) = h.modeDigit k) ∧
        w.toNat / 10 ^ (h.opcode.arity + 2) = 0 := by
  constructor
  · intro hd
    unfold decodeHead at hd
    split at hd
    · cases hd
    · rename_i hpos
      split at hd
      · cases hd
      · rename_i op hop
        obtain ⟨rfl, hdig, hx⟩ := digits_of_decodeModes hd
        exact ⟨not_lt.mp hpos, Opcode.code_of_ofCode? hop, hdig, hx⟩
  · rintro ⟨hpos, hop, hdig, hx⟩
    have hall (k : Nat) : 1 ≤ k → digit w.toNat (k + 1) = h.modeDigit k := digit_eq_modeDigit hdig hx
    rw [decodeHead, if_neg (not_lt.mpr hpos), hop, Opcode.ofCode?_code]
    exact decodeModes_of_digits (hall 1 (by decide)) (hall 2 (by decide)) (hall 3 (by decide)) hx

/-- A number with at most five digits is what they say. -/
theorem eq_of_digits {w : Nat} (hx : w / 10 ^ 5 = 0) :
    w = (digit w 2 + 10 * digit w 3 + 100 * digit w 4) * 100 + w % 100 := by
  unfold digit
  omega

/-- An instruction word is the only word that decodes to its parts. -/
theorem decodeHead_ok_iff_encode {w : Word} {h : Head} : decodeHead w = .ok h ↔ w = h.encode := by
  refine ⟨fun hd => ?_, fun hw => hw ▸ decodeHead_encode h⟩
  obtain ⟨-, hop, hdig, hx⟩ := decodeHead_ok.mp hd
  have hall (k : Nat) : 1 ≤ k → digit w.toNat (k + 1) = h.modeDigit k := digit_eq_modeDigit hdig hx
  have hx5 : w.toNat / 10 ^ 5 = 0 := by
    have := h.opcode.arity_le
    have hle : 10 ^ (h.opcode.arity + 2) ≤ 10 ^ 5 := Nat.pow_le_pow_right (by decide) (by omega)
    exact Nat.le_zero.mp (hx ▸ Nat.div_le_div_left hle (by positivity))
  refine BitVec.eq_of_toNat_eq ?_
  rw [eq_of_digits hx5, h.encode_toNat, hop, hall 1 (by decide), hall 2 (by decide), hall 3 (by decide)]

theorem Head.encode_injective : Function.Injective Head.encode := fun g h hgh => by
  have : decodeHead g.encode = .ok h := decodeHead_ok_iff_encode.mpr hgh
  rw [decodeHead_encode] at this
  exact Except.ok.inj this

/-- Settles O5. -/
theorem decodeInvertsEncode : Obligations.DecodeInvertsEncode := decode_encode_append

/-- Settles O6: the instruction word is the only one with its parts, and the operand words stand after it. -/
theorem encodeInvertsDecode : Obligations.EncodeInvertsDecode := by
  intro ws rest i hd
  obtain ⟨w, hw, hh, hp, rfl⟩ := decode_ok.mp hd
  obtain rfl := decodeHead_ok_iff_encode.mp hh
  have hlen : i.length = (encode i).length := by
    simp [encode, Instr.length, Instr.length_params, Nat.add_comm]
  have hpre : encode i <+: ws := by
    refine List.prefix_iff_getElem?.mpr fun k hk => ?_
    cases k with
    | zero => exact hw
    | succ k =>
      have hk' : k < i.params.length := by simpa [encode] using hk
      simpa [encode] using hp k i.params[k] (List.getElem?_eq_getElem hk')
  rw [hlen]
  exact (List.prefix_iff_eq_append.mp hpre).symm

/-- Settles O7: `decodeHead_ok` says which digits a decoded word has. -/
theorem instructionWordDigits : Obligations.InstructionWordDigits := by
  refine ⟨fun w h hpos hx => ?_, Head.encode_toNat, ⟨rfl, rfl, rfl⟩, rfl⟩
  rw [decodeHead_ok, and_iff_right hpos, and_iff_left hx]
  refine and_congr_right fun _ => forall₃_congr fun k h1 hk => ?_
  rw [Head.getElem?_modes_toDigit h1 hk, Option.some_inj, eq_comm]

/-! Which words are instruction words (R306, R312). -/

theorem Mode.mem_all (m : Mode) : m ∈ [Mode.position, .immediate, .relative] := by
  cases m <;> decide

theorem Opcode.opcode_of_mem_heads {op : Opcode} : ∀ h ∈ op.heads, h.opcode = op := by
  cases op <;> decide

theorem Head.mem_heads (h : Head) : h ∈ h.opcode.heads := by
  cases h with
  | add a b d | mul a b d | lt a b d | eq a b d =>
    exact List.mem_flatMap.mpr ⟨d, d.mem_all, List.mem_flatMap.mpr ⟨b, b.mem_all, List.mem_map_of_mem a.mem_all⟩⟩
  | jt c t | jf c t => exact List.mem_flatMap.mpr ⟨t, t.mem_all, List.mem_map_of_mem c.mem_all⟩
  | inp p | out p | arb p => exact List.mem_map_of_mem p.mem_all
  | hlt => exact List.mem_singleton_self _

theorem Head.mem_legalHeads (h : Head) : h ∈ legalHeads := by
  refine List.mem_flatMap.mpr ⟨h.opcode, ?_, h.mem_heads⟩
  cases h.opcode <;> decide

/-- No instruction word's parts are listed twice: not under one opcode, and not under two. -/
theorem legalHeads_nodup : legalHeads.Nodup := by
  refine List.nodup_flatMap.mpr ⟨fun op _ => by cases op <;> decide, ?_⟩
  have hops : [Opcode.add, .mul, .inp, .out, .jt, .jf, .lt, .eq, .arb, .hlt].Nodup := by decide
  refine hops.imp fun hne h h1 h2 => hne ?_
  rw [← Opcode.opcode_of_mem_heads h h1, Opcode.opcode_of_mem_heads h h2]

/-- Settles O11: every word made of parts is in the list, and only such words decode. -/
theorem exactlyTheLegalWordsDecode : Obligations.ExactlyTheLegalWordsDecode := by
  refine ⟨fun w => ?_, legalHeads_nodup.map Head.encode_injective, rfl, rfl⟩
  simp only [decodeHead_ok_iff_encode, List.mem_map]
  exact exists_congr fun h => ⟨fun hw => ⟨h.mem_legalHeads, hw.symm⟩, fun hw => hw.2.symm⟩

/-- Settles O12. -/
theorem writtenOutWordsDecode : Obligations.WrittenOutWordsDecode :=
  ⟨rfl, rfl, rfl, rfl, rfl, rfl, rfl, rfl, rfl, rfl⟩

/-! Why a word is refused (R308 to R311), in the order of R307. -/

theorem Opcode.ofCode?_eq_none {n : Nat} (h : n = 0 ∨ (10 ≤ n ∧ n ≤ 98)) : Opcode.ofCode? n = none := by
  refine Option.eq_none_iff_forall_ne_some.mpr fun op hop => ?_
  have := Opcode.code_of_ofCode? hop
  cases op <;> simp only [Opcode.code] at this <;> omega

theorem decodeMode_of_lt {w k : Nat} (h : digit w (k + 1) < 3) : ∃ m, decodeMode w k = .ok m := by
  have : ∃ m : Mode, digit w (k + 1) = m.toDigit := by
    generalize digit w (k + 1) = d at h
    interval_cases d
    exacts [⟨.position, rfl⟩, ⟨.immediate, rfl⟩, ⟨.relative, rfl⟩]
  exact this.imp fun m hm => decodeMode_ok.mpr hm

theorem decodeMode_error {w k : Nat} (h : 3 ≤ digit w (k + 1)) :
    decodeMode w k = .error (.badMode k (digit w (k + 1))) := by
  have : Mode.ofDigit? (digit w (k + 1)) = none := by
    refine Option.eq_none_iff_forall_ne_some.mpr fun m hm => ?_
    have := m.toDigit_lt
    have := Mode.ofDigit?_eq_some.mp hm
    omega
  simp only [decodeMode, this]

/-- The first parameter with an illegal mode digit is the one reported (R309). -/
theorem decodeModes_badMode {op : Opcode} {w k : Nat} (hk : 1 ≤ k) (hka : k ≤ op.arity) (hbad : 3 ≤ digit w (k + 1))
    (hlow : ∀ j, 1 ≤ j → j < k → digit w (j + 1) < 3) :
    decodeModes op w = .error (.badMode k (digit w (k + 1))) := by
  have he := decodeMode_error hbad
  have hok (j : Nat) (h1 : 1 ≤ j) (hj : j < k) : ∃ m, decodeMode w j = .ok m := decodeMode_of_lt (hlow j h1 hj)
  cases op with
  | inp | out | arb =>
    obtain rfl : k = 1 := Nat.le_antisymm hka hk
    simp only [decodeModes, decodeModes1, he]
  | jt | jf =>
    obtain rfl | rfl : k = 1 ∨ k = 2 := by simp only [Opcode.arity] at hka; omega
    · simp only [decodeModes, decodeModes2, he]
    · obtain ⟨a, ha⟩ := hok 1 (by decide) (by decide)
      simp only [decodeModes, decodeModes2, ha, he]
  | add | mul | lt | eq =>
    obtain rfl | rfl | rfl : k = 1 ∨ k = 2 ∨ k = 3 := by simp only [Opcode.arity] at hka; omega
    · simp only [decodeModes, decodeModes3, he]
    · obtain ⟨a, ha⟩ := hok 1 (by decide) (by decide)
      simp only [decodeModes, decodeModes3, ha, he]
    · obtain ⟨a, ha⟩ := hok 1 (by decide) (by decide)
      obtain ⟨b, hb⟩ := hok 2 (by decide) (by decide)
      simp only [decodeModes, decodeModes3, ha, hb, he]
  | hlt => exact absurd (hk.trans hka) (by decide)

/-- A digit above legal mode digits is reported as one (R311). -/
theorem decodeModes_excess {op : Opcode} {w : Nat} (hlow : ∀ k, 1 ≤ k → k ≤ op.arity → digit w (k + 1) < 3)
    (hx : w / 10 ^ (op.arity + 2) ≠ 0) : decodeModes op w = .error .excessDigits := by
  have hok (k : Nat) (h1 : 1 ≤ k) (hk : k ≤ op.arity) : ∃ m, decodeMode w k = .ok m := decodeMode_of_lt (hlow k h1 hk)
  cases op with
  | inp | out | arb =>
    obtain ⟨a, ha⟩ := hok 1 (by decide) (by decide)
    simp only [decodeModes, decodeModes1, ha]
    exact if_neg hx
  | jt | jf =>
    obtain ⟨a, ha⟩ := hok 1 (by decide) (by decide)
    obtain ⟨b, hb⟩ := hok 2 (by decide) (by decide)
    simp only [decodeModes, decodeModes2, ha, hb]
    exact if_neg hx
  | add | mul | lt | eq =>
    obtain ⟨a, ha⟩ := hok 1 (by decide) (by decide)
    obtain ⟨b, hb⟩ := hok 2 (by decide) (by decide)
    obtain ⟨c, hc⟩ := hok 3 (by decide) (by decide)
    simp only [decodeModes, decodeModes3, ha, hb, hc]
    exact if_neg hx
  | hlt => exact if_neg hx

/-- A non-negative word with an opcode in its two low digits goes on to its mode digits. -/
theorem decodeHead_of_code {w : Word} {op : Opcode} (hpos : 0 ≤ w.toInt) (hop : w.toNat % 100 = op.code) :
    decodeHead w = decodeModes op w.toNat := by
  rw [decodeHead, if_neg (not_lt.mpr hpos), hop, Opcode.ofCode?_code]

end Sys2Proof

namespace Sys2Proof.Machine

/-- Settles O8: no opcode has such a number. -/
theorem illegalOpcodeFaults : Obligations.IllegalOpcodeFaults := by
  refine ⟨fun s w hp hb hw hpos hop => ?_, fun _ => rfl, rfl, rfl, rfl, rfl, rfl, rfl⟩
  refine step_malformed hp (memRead_ok.mpr ⟨hb, hw⟩) ?_
  rw [decodeHead, if_neg (not_lt.mpr hpos), Opcode.ofCode?_eq_none hop]

/-- Settles O9. -/
theorem illegalModeDigitFaults : Obligations.IllegalModeDigitFaults := by
  refine ⟨fun s w op k hp hb hw hpos hop hk hka hbad hlow => ?_, rfl⟩
  refine step_malformed hp (memRead_ok.mpr ⟨hb, hw⟩) ?_
  rw [decodeHead_of_code hpos hop, decodeModes_badMode hk hka hbad hlow]

/-- Settles O10. -/
theorem negativeAndExcessWordsFault : Obligations.NegativeAndExcessWordsFault := by
  refine fun s w hp hb hw => ⟨fun hneg => ?_, fun op hpos hop hlow hx => ?_⟩
  · exact step_malformed hp (memRead_ok.mpr ⟨hb, hw⟩) (if_pos hneg)
  · refine step_malformed hp (memRead_ok.mpr ⟨hb, hw⟩) ?_
    rw [decodeHead_of_code hpos hop, decodeModes_excess hlow hx]

/-- Settles O53: the expansions' Immediate operands resolve to their numbers, and a sum with 0 is exact. -/
theorem pseudoInstructionsAct : Obligations.PseudoInstructionsAct := by
  refine fun s p d x hx => ⟨rfl, ?_, fun c hm hd hb => ?_⟩
  · exact exec_jt (c := .imm 1) (x := 1) rfl hx
  · have hsum : fAdd x 0 = .ok x := narrow_ok.mpr (by simpa using Word.inWord_toInt x)
    have ht := exec_alu_store (e := (Instr.add, fAdd)) (by simp [aluTable]) hx (b := .imm 0) rfl hsum hd hb
    exact ⟨_, ht, Memory.read_write_same s.mem _ x hm, fun n hn => Memory.read_write_other s.mem x hn, rfl⟩

end Sys2Proof.Machine
end

section
/-! PROOFS. The assembly language: how its text is taken apart, and the words it assembles to (R320 to R324). -/

namespace Sys2Proof.Machine

/-! Lists read item by item. -/

theorem mapM_eq_some_iff {α β : Type} {f : α → Option β} {l : List α} {ys : List β} :
    l.mapM f = some ys ↔ List.Forall₂ (fun x y => f x = some y) l ys := by
  induction l generalizing ys with
  | nil => cases ys <;> simp
  | cons x l ih =>
    rw [List.mapM_cons, List.forall₂_cons_left_iff]
    simp only [Option.bind_eq_bind, Option.bind_eq_some_iff, Option.pure_def, Option.some_inj, ih]
    exact ⟨fun ⟨y, hy, ys, hys, h⟩ => ⟨y, ys, hy, hys, h.symm⟩, fun ⟨y, ys, hy, hys, h⟩ => ⟨y, hy, ys, hys, h.symm⟩⟩

theorem exists_forall₂ {α β : Type} {R : α → β → Prop} {l : List α} (h : ∀ x ∈ l, ∃ y, R x y) :
    ∃ ys, List.Forall₂ R l ys := by
  induction l with
  | nil => exact ⟨[], .nil⟩
  | cons x l ih =>
    obtain ⟨hx, hl⟩ := List.forall_mem_cons.mp h
    obtain ⟨y, hy⟩ := hx
    obtain ⟨ys, hys⟩ := ih hl
    exact ⟨y :: ys, .cons hy hys⟩

/-! Splitting and trimming. -/

theorem splitText_of_not_mem {sep : Char} {g : List Char} (h : sep ∉ g) : splitText sep g = [g] := by
  induction g with
  | nil => rfl
  | cons c g ih =>
    obtain ⟨hc, hg⟩ := List.ne_and_not_mem_of_not_mem_cons h
    rw [splitText, if_neg hc.symm, ih hg]

theorem splitText_append {sep : Char} {g : List Char} (cs : List Char) (h : sep ∉ g) :
    splitText sep (g ++ sep :: cs) = g :: splitText sep cs := by
  induction g with
  | nil => exact if_pos rfl
  | cons c g ih =>
    obtain ⟨hc, hg⟩ := List.ne_and_not_mem_of_not_mem_cons h
    rw [List.cons_append, splitText, if_neg hc.symm, ih hg]

/-- Pieces without the separator, joined by it and some padding, are split into the pieces, each later one with the padding
before it. -/
theorem splitText_joinChars {sep : Char} {pad g : List Char} {gs : List (List Char)} (hpad : sep ∉ pad)
    (h : ∀ p ∈ g :: gs, sep ∉ p) :
    splitText sep (joinChars (sep :: pad) (g :: gs)) = g :: gs.map (pad ++ ·) := by
  have key (pre : List Char) (hpre : sep ∉ pre) :
      splitText sep (pre ++ joinChars (sep :: pad) (g :: gs)) = (pre ++ g) :: gs.map (pad ++ ·) := by
    induction gs generalizing pre g with
    | nil => exact splitText_of_not_mem (by simpa [joinChars, hpre] using h)
    | cons g' gs ih =>
      obtain ⟨hg, hgs⟩ := List.forall_mem_cons.mp h
      have : pre ++ joinChars (sep :: pad) (g :: g' :: gs) =
          (pre ++ g) ++ sep :: (pad ++ joinChars (sep :: pad) (g' :: gs)) := by simp [joinChars]
      rw [this, splitText_append _ (by simp [hpre, hg]), ih hgs pad hpad, List.map_cons]
  exact key [] List.not_mem_nil

/-- A text that neither begins nor ends with white space. -/
def Trimmed (cs : List Char) : Prop :=
  (∀ c ∈ cs.head?, c.isWhitespace = false) ∧ ∀ c ∈ cs.getLast?, c.isWhitespace = false

theorem trimText_of_trimmed {cs : List Char} (h : Trimmed cs) : trimText cs = cs := by
  obtain ⟨hhead, hlast⟩ := h
  have hdrop : cs.dropWhile Char.isWhitespace = cs := by
    cases cs with
    | nil => rfl
    | cons c cs => exact List.dropWhile_cons_of_neg (by simp [hhead c rfl])
  rw [trimText, hdrop]
  exact List.rdropWhile_eq_self_iff.mpr fun hl => by simp [hlast _ (List.getLast?_eq_some_getLast hl)]

theorem trimText_cons_space (cs : List Char) : trimText (' ' :: cs) = trimText cs := rfl

theorem trimmed_of_forall {cs : List Char} (h : ∀ c ∈ cs, c.isWhitespace = false) : Trimmed cs :=
  ⟨fun c hc => h c (List.mem_of_mem_head? hc), fun c hc => h c (List.mem_of_mem_getLast? hc)⟩

/-- Only the two ends of a text decide whether it is trimmed. -/
theorem Trimmed.append_append {g h : List Char} (hg : Trimmed g) (hh : Trimmed h) (hg0 : g ≠ []) (hh0 : h ≠ [])
    (x : List Char) : Trimmed (g ++ x ++ h) := by
  refine ⟨fun c hc => hg.1 c ?_, fun c hc => hh.2 c ?_⟩
  · rwa [List.append_assoc, List.head?_append_of_ne_nil _ hg0] at hc
  · rwa [List.getLast?_append_of_ne_nil _ hh0] at hc

/-! Characters of operands and mnemonics. -/

/-- A character of a mnemonic or an operand: neither white space nor a sign that separates the parts of a line. -/
abbrev Plain (c : Char) : Prop := c.isWhitespace = false ∧ c ∉ [',', ':', ';']

/-- A mnemonic or an operand: some plain characters. -/
def Solid (g : List Char) : Prop := g ≠ [] ∧ ∀ c ∈ g, Plain c

theorem Solid.trimmed {g : List Char} (h : Solid g) : Trimmed g := trimmed_of_forall fun c hc => (h.2 c hc).1

/-- What stands on a line after the mnemonic: nothing, or a space and the operands with commas between them (R321). -/
def argsChars : List (List Char) → List Char
  | [] => []
  | g :: gs => [' '] ++ joinChars [',', ' '] (g :: gs)

theorem SourceStmt.chars_eq (a : SourceStmt) (ts : List TextItem) :
    a.chars ts = a.mnemonic ++ argsChars ((a.params.zip ts).map fun q => operandChars q.1.mode q.2) := by
  unfold SourceStmt.chars
  cases a.params.zip ts <;> rfl

theorem mem_joinChars {sep : List Char} {gs : List (List Char)} {c : Char} (h : c ∈ joinChars sep gs) :
    c ∈ sep ∨ ∃ g ∈ gs, c ∈ g := by
  induction gs with
  | nil => cases h
  | cons g gs ih =>
    cases gs with
    | nil => exact .inr ⟨g, List.mem_cons_self, h⟩
    | cons g' gs =>
      rcases List.mem_append.mp h with h | h
      · rcases List.mem_append.mp h with h | h
        · exact .inr ⟨g, List.mem_cons_self, h⟩
        · exact .inl h
      · exact (ih h).imp_right fun ⟨p, hp, hc⟩ => ⟨p, List.mem_cons_of_mem g hp, hc⟩

theorem joinChars_trimmed (sep : List Char) {g : List Char} {gs : List (List Char)} (h : ∀ p ∈ g :: gs, Solid p) :
    joinChars sep (g :: gs) ≠ [] ∧ Trimmed (joinChars sep (g :: gs)) := by
  induction gs generalizing g with
  | nil =>
    have hg := h g List.mem_cons_self
    exact ⟨hg.1, hg.trimmed⟩
  | cons g' gs ih =>
    obtain ⟨hg, hgs⟩ := List.forall_mem_cons.mp h
    obtain ⟨hne, ht⟩ := ih hgs
    exact ⟨List.append_ne_nil_of_right_ne_nil _ hne, hg.trimmed.append_append ht hg.1 hne sep⟩

/-! Reading a line. -/

/-- The operands of a line are read back as the pieces they were written from. -/
theorem itemsText_argsChars {gs : List (List Char)} (h : ∀ g ∈ gs, Solid g) :
    itemsText (trimText (argsChars gs)) = gs := by
  cases gs with
  | nil => rfl
  | cons g gs =>
    obtain ⟨hne, ht⟩ := joinChars_trimmed [',', ' '] h
    have hsplit := splitText_joinChars (sep := ',') (pad := [' ']) (by decide) fun p hp hc => (((h p hp).2 _ hc).2 (by simp))
    have htrim (p : List Char) (hp : p ∈ g :: gs) : trimText p = p := trimText_of_trimmed (h p hp).trimmed
    have htail : gs.map (trimText ∘ ([' '] ++ ·)) = gs :=
      (List.map_congr_left fun p hp => (trimText_cons_space p).trans (htrim p (List.mem_cons_of_mem g hp))).trans (List.map_id gs)
    rw [argsChars, List.singleton_append, trimText_cons_space, trimText_of_trimmed ht, itemsText,
      if_neg (by simpa using hne), hsplit, List.map_cons, List.map_map, htrim g List.mem_cons_self, htail]

theorem bodyText?_line {m : List Char} {gs : List (List Char)} (hm : Solid m) (hgs : ∀ g ∈ gs, Solid g) :
    bodyText? (m ++ argsChars gs) = (stmtText? m gs).map some := by
  have htake : (m ++ argsChars gs).takeWhile (fun c => !c.isWhitespace) = m := by
    rw [List.takeWhile_append_of_pos fun c hc => by rw [(hm.2 c hc).1]; rfl]
    cases gs <;> simp [argsChars]
  have hne : (m ++ argsChars gs).isEmpty = false := by simp [hm.1]
  simp only [bodyText?, hne, htake, List.drop_left, itemsText_argsChars hgs]
  rfl

/-- A character of a line is one of the mnemonic's or an operand's, or a space or comma between them. -/
theorem mem_line {m : List Char} {gs : List (List Char)} (hm : Solid m) (hgs : ∀ g ∈ gs, Solid g) {c : Char}
    (hc : c ∈ m ++ argsChars gs) : Plain c ∨ c ∈ [',', ' '] := by
  rcases List.mem_append.mp hc with hc | hc
  · exact .inl (hm.2 c hc)
  · cases gs with
    | nil => cases hc
    | cons g gs =>
      rcases List.mem_cons.mp hc with rfl | hc
      · simp
      · rcases mem_joinChars hc with hc | ⟨p, hp, hc⟩
        · exact .inr hc
        · exact .inl ((hgs p hp).2 c hc)

theorem line_trimmed {m : List Char} {gs : List (List Char)} (hm : Solid m) (hgs : ∀ g ∈ gs, Solid g) :
    Trimmed (m ++ argsChars gs) := by
  cases gs with
  | nil => rw [argsChars, List.append_nil]; exact hm.trimmed
  | cons g gs =>
    obtain ⟨hne, ht⟩ := joinChars_trimmed [',', ' '] hgs
    rw [argsChars, ← List.append_assoc]
    exact hm.trimmed.append_append ht hm.1 hne [' ']

/-- A line of a mnemonic and operands is the statement they are. -/
theorem lineText?_line {m : List Char} {gs : List (List Char)} {st : AsmStmt} (hm : Solid m) (hgs : ∀ g ∈ gs, Solid g)
    (hst : stmtText? m gs = some st) : lineText? (m ++ argsChars gs) = some ⟨none, some st⟩ := by
  have hcode : (m ++ argsChars gs).takeWhile (fun c => c != ';') = m ++ argsChars gs := by
    refine List.takeWhile_eq_self_iff.mpr fun c hc => bne_iff_ne.mpr ?_
    rintro rfl
    exact absurd (mem_line hm hgs hc) (by decide)
  have hcolon : ':' ∉ m ++ argsChars gs := fun hc => absurd (mem_line hm hgs hc) (by decide)
  simp only [lineText?, hcode, trimText_of_trimmed (line_trimmed hm hgs), splitText_of_not_mem hcolon,
    bodyText?_line hm hgs, hst]
  rfl

/-! Reading numbers and operands. -/

theorem digitChar_spec (d : Fin 10) :
    Plain (Char.ofNat (48 + d.val)) ∧ digitValue? (Char.ofNat (48 + d.val)) = some d.val ∧
      Char.ofNat (48 + d.val) ≠ '-' ∧ Char.ofNat (48 + d.val) ≠ 'r' := by
  revert d
  decide

theorem digitsFrom?_digits (acc : Nat) (ds : List (Fin 10)) :
    digitsFrom? acc (ds.map fun d => Char.ofNat (48 + d.val)) =
      some (ds.foldl (fun acc d => acc * 10 + d.val) acc) := by
  induction ds generalizing acc with
  | nil => rfl
  | cons d ds ih =>
    simp only [List.map_cons, digitsFrom?, (digitChar_spec d).2.1]
    exact ih _

/-- The text of an item is read as the integer it stands for (R702). -/
theorem intText?_chars {t : TextItem} (h : t.digits ≠ []) : intText? t.chars = some t.value := by
  obtain ⟨negative, digits⟩ := t
  obtain ⟨d, ds, rfl⟩ := List.exists_cons_of_ne_nil h
  have hnat : natText? ((d :: ds).map fun d => Char.ofNat (48 + d.val)) =
      some ((d :: ds).foldl (fun acc d => acc * 10 + d.val) 0) := digitsFrom?_digits 0 (d :: ds)
  cases negative with
  | true =>
    simp only [TextItem.chars, TextItem.value, if_true, List.singleton_append, intText?, hnat]
    rfl
  | false =>
    have hd : Char.ofNat (48 + d.val) ≠ '-' := (digitChar_spec d).2.2.1
    rw [List.map_cons] at hnat
    simp only [TextItem.chars, TextItem.value, List.map_cons, List.nil_append, intText?, hd, if_false, hnat,
      Bool.false_eq_true]
    rfl

theorem plain_of_mem_chars {t : TextItem} {c : Char} (hc : c ∈ t.chars) : Plain c ∧ c ≠ 'r' := by
  rcases List.mem_append.mp hc with hc | hc
  · cases hn : t.negative with
    | true =>
      obtain rfl : c = '-' := by simpa [hn] using hc
      decide
    | false => simp [hn] at hc
  · obtain ⟨d, -, rfl⟩ := List.mem_map.mp hc
    exact ⟨(digitChar_spec d).1, (digitChar_spec d).2.2.2⟩

theorem valueText?_chars {t : TextItem} (h : t.digits ≠ []) : valueText? (trimText t.chars) = some (.num t.value) := by
  rw [trimText_of_trimmed (trimmed_of_forall fun c hc => (plain_of_mem_chars hc).1.1)]
  simp only [valueText?, intText?_chars h]

theorem operandChars_solid (m : Mode) (t : TextItem) : Solid (operandChars m t) := by
  have plain (u : TextItem) : ∀ c ∈ u.chars, Plain c := fun c hc => (plain_of_mem_chars hc).1
  cases m with
  | position =>
    refine ⟨by simp [operandChars], fun c hc => ?_⟩
    obtain rfl | hc | rfl : c = '[' ∨ c ∈ t.chars ∨ c = ']' := by simpa [operandChars] using hc
    exacts [by decide, plain t c hc, by decide]
  | immediate =>
    refine ⟨by simp [operandChars], fun c hc => ?_⟩
    obtain rfl | hc : c = '#' ∨ c ∈ t.chars := by simpa [operandChars] using hc
    exacts [by decide, plain t c hc]
  | relative =>
    refine ⟨by simp [operandChars], fun c hc => ?_⟩
    obtain rfl | rfl | rfl | rfl | hc | rfl : c = '[' ∨ c = 'r' ∨ c = 'b' ∨
        (c = if t.negative then '-' else '+') ∨ c ∈ t.magnitude.chars ∨ c = ']' := by simpa [operandChars] using hc
    exacts [by decide, by decide, by decide, by cases t.negative <;> decide, plain _ c hc, by decide]

theorem operandText?_bracket (cs : List Char) : operandText? ('[' :: (cs ++ [']'])) = bracketText? (trimText cs) := by
  simp only [operandText?, List.reverse_append, List.reverse_singleton, List.singleton_append, List.reverse_reverse]

/-- What stands in brackets is an address if it does not begin as `rb+r` and `rb-r` do. -/
theorem bracketText?_position {cs : List Char} (h : ∀ c ∈ cs, c ≠ 'r') :
    bracketText? cs = (valueText? (trimText cs)).map fun v => ⟨.position, v⟩ := by
  unfold bracketText?
  split
  · exact absurd rfl (h 'r' List.mem_cons_self)
  · exact absurd rfl (h 'r' List.mem_cons_self)
  · rfl

/-- The integer of an item is its magnitude with its sign. -/
theorem TextItem.value_eq (t : TextItem) : t.value = if t.negative then -t.magnitude.value else t.magnitude.value := by
  cases hn : t.negative <;> simp [TextItem.value, TextItem.magnitude, hn]

/-- An operand is read in its mode, and its number is the one its digits and sign write (R320). -/
theorem operandText?_chars (m : Mode) {t : TextItem} (h : t.digits ≠ []) :
    ∃ v, operandText? (operandChars m t) = some ⟨m, v⟩ ∧ ∀ labels, v.eval labels = some t.value := by
  have plain (u : TextItem) (c : Char) (hc : c ∈ u.chars) : Plain c := (plain_of_mem_chars hc).1
  cases m with
  | immediate =>
    refine ⟨.num t.value, ?_, fun _ => rfl⟩
    simp only [operandChars, List.singleton_append, operandText?, valueText?_chars h]
    rfl
  | position =>
    refine ⟨.num t.value, ?_, fun _ => rfl⟩
    refine (operandText?_bracket t.chars).trans ?_
    rw [trimText_of_trimmed (trimmed_of_forall fun c hc => (plain t c hc).1),
      bracketText?_position fun c hc => (plain_of_mem_chars hc).2, valueText?_chars h]
    rfl
  | relative =>
    have hmag : valueText? (trimText t.magnitude.chars) = some (.num t.magnitude.value) := valueText?_chars h
    have htrim (sign : Char) (hs : sign.isWhitespace = false) :
        trimText ('r' :: 'b' :: sign :: t.magnitude.chars) = 'r' :: 'b' :: sign :: t.magnitude.chars := by
      refine trimText_of_trimmed (trimmed_of_forall fun c hc => ?_)
      obtain rfl | rfl | rfl | hc : c = 'r' ∨ c = 'b' ∨ c = sign ∨ c ∈ t.magnitude.chars := by simpa using hc
      exacts [by decide, by decide, hs, (plain _ c hc).1]
    cases hn : t.negative with
    | true =>
      refine ⟨.neg (.num t.magnitude.value), ?_, fun _ => by rw [t.value_eq, hn]; rfl⟩
      simp only [operandChars, hn, if_true]
      refine (operandText?_bracket ('r' :: 'b' :: '-' :: t.magnitude.chars)).trans ?_
      rw [htrim '-' (by decide), bracketText?, hmag]
      rfl
    | false =>
      refine ⟨.num t.magnitude.value, ?_, fun _ => by rw [t.value_eq, hn]; rfl⟩
      simp only [operandChars, hn, Bool.false_eq_true, if_false]
      refine (operandText?_bracket ('r' :: 'b' :: '+' :: t.magnitude.chars)).trans ?_
      rw [htrim '+' (by decide), bracketText?, hmag]
      rfl

/-! From operands to words. -/

/-- An operand whose number is a parameter's word stands for the parameter. -/
theorem param?_of_eval {labels : List (List Char × Nat)} {v : AsmValue} {p : Param}
    (h : v.eval labels = some p.word.toInt) : AsmOperand.param? labels ⟨p.mode, v⟩ = some p := by
  have hw : wordOf? p.word.toInt = some p.word := by
    rw [wordOf?, if_pos (Word.inWord_toInt _), Word.ofInt_toInt]
  simp only [AsmOperand.param?, h, Option.bind_eq_bind, Option.bind_some, hw, Option.pure_def, Param.mode_param_word]

theorem instrOfParams?_params (i : Instr) : instrOfParams? i.opcode i.params = some i := by
  cases i <;> rfl

theorem emit_instr {labels : List (List Char × Nat)} {i : Instr} {os : List AsmOperand}
    (h : os.mapM (AsmOperand.param? labels) = some i.params) :
    (AsmStmt.instr i.opcode os).emit labels = some (encode i) := by
  simp only [AsmStmt.emit, h, Option.bind_eq_bind, Option.bind_some, instrOfParams?_params, Option.pure_def]

theorem stmtText?_instr (op : Opcode) {gs : List (List Char)} {os : List AsmOperand}
    (h : gs.mapM operandText? = some os) : stmtText? (mnemonicChars op) gs = some (.instr op os) := by
  cases op <;> simp only [stmtText?, mnemonicChars, h] <;> rfl

theorem SourceStmt.mnemonic_solid (a : SourceStmt) : Solid a.mnemonic := by
  cases a with
  | instr i =>
    have : ∀ op, Solid (mnemonicChars op) := fun op => by cases op <;> simp [Solid, Plain, mnemonicChars, Char.isWhitespace]
    exact this i.opcode
  | jmp | mov | nop => simp [Solid, Plain, mnemonic, Char.isWhitespace]

theorem SourceStmt.args_solid (a : SourceStmt) (ts : List TextItem) :
    ∀ g ∈ (a.params.zip ts).map fun q => operandChars q.1.mode q.2, Solid g :=
  List.forall_mem_map.mpr fun _ _ => operandChars_solid ..

/-- A statement is read from its mnemonic and operands, and emits the encoding of what it stands for (R321, R324). -/
theorem stmtText?_emit {a : SourceStmt} {gs : List (List Char)} {os : List AsmOperand}
    (hgs : gs.mapM operandText? = some os) (hos : os.mapM (AsmOperand.param? []) = some a.params) :
    ∃ st, stmtText? a.mnemonic gs = some st ∧ st.emit [] = some (encode a.expand) := by
  cases a with
  | instr i => exact ⟨_, stmtText?_instr i.opcode hgs, emit_instr hos⟩
  | jmp t =>
    obtain ⟨o, os, ho, hnil, rfl⟩ := List.forall₂_cons_right_iff.mp (mapM_eq_some_iff.mp hos)
    obtain rfl := List.forall₂_nil_right_iff.mp hnil
    refine ⟨.jmp o, ?_, ?_⟩
    · simp only [stmtText?, SourceStmt.mnemonic, hgs]
      rfl
    · simp only [AsmStmt.emit, ho]
      rfl
  | mov p d =>
    obtain ⟨o, os, ho, hos', rfl⟩ := List.forall₂_cons_right_iff.mp (mapM_eq_some_iff.mp hos)
    obtain ⟨o', os, ho', hnil, rfl⟩ := List.forall₂_cons_right_iff.mp hos'
    obtain rfl := List.forall₂_nil_right_iff.mp hnil
    refine ⟨.mov o o', ?_, ?_⟩
    · simp only [stmtText?, SourceStmt.mnemonic, hgs]
      rfl
    · simp only [AsmStmt.emit, ho, ho']
      rfl
  | nop =>
    obtain rfl := List.forall₂_nil_right_iff.mp (mapM_eq_some_iff.mp hos)
    refine ⟨.nop, ?_, rfl⟩
    simp only [stmtText?, SourceStmt.mnemonic, hgs]
    rfl

/-- A line that writes a statement is read as one that emits the encoding of what the statement stands for. -/
theorem lineText?_chars {a : SourceStmt} {ts : List TextItem} (h : a.writtenBy ts) :
    ∃ st, lineText? (a.chars ts) = some ⟨none, some st⟩ ∧ st.emit [] = some (encode a.expand) := by
  obtain ⟨hval, hdig⟩ := h
  have hfst : (a.params.zip ts).map Prod.fst = a.params :=
    List.map_fst_zip (by simpa using (congrArg List.length hval).ge)
  have hq : ∀ q ∈ a.params.zip ts, ∃ o, operandText? (operandChars q.1.mode q.2) = some o ∧ o.param? [] = some q.1 := by
    intro q hq
    obtain ⟨v, hv, heval⟩ := operandText?_chars q.1.mode (hdig q.2 (List.of_mem_zip hq).2)
    have hword : q.2.value = q.1.word.toInt := by
      have : List.Forall₂ (fun (p : Param) (t : TextItem) => t.value = p.word.toInt) a.params ts := by
        rw [← List.forall₂_eq_eq_eq, List.forall₂_map_left_iff, List.forall₂_map_right_iff] at hval
        exact hval.flip
      exact List.forall₂_zip this hq
    exact ⟨_, hv, param?_of_eval (hword ▸ heval [])⟩
  obtain ⟨os, hos⟩ := exists_forall₂ hq
  have hread : ((a.params.zip ts).map fun q => operandChars q.1.mode q.2).mapM operandText? = some os :=
    mapM_eq_some_iff.mpr (List.forall₂_map_left_iff.mpr (hos.imp fun _ _ h => h.1))
  have hparam : os.mapM (AsmOperand.param? []) = some a.params := by
    rw [← hfst]
    exact mapM_eq_some_iff.mpr (List.forall₂_map_right_iff.mpr (hos.imp fun _ _ h => h.2).flip)
  obtain ⟨st, hst, hemit⟩ := stmtText?_emit hread hparam
  refine ⟨st, ?_, hemit⟩
  rw [SourceStmt.chars_eq]
  exact lineText?_line a.mnemonic_solid (a.args_solid ts) hst

/-! From lines to words. -/

theorem asmLabels_of_unlabelled (a : Nat) (sts : List AsmStmt) :
    asmLabels a (sts.map fun st => ⟨none, some st⟩) = [] := by
  induction sts generalizing a with
  | nil => rfl
  | cons st sts ih => exact ih _

/-- The words of statements are put one after another. -/
theorem foldr_emit {labels : List (List Char × Nat)} {sts : List AsmStmt} {is : List Instr}
    (h : List.Forall₂ (fun st i => AsmStmt.emit labels st = some (encode i)) sts is) :
    sts.foldr (fun t rest => do return (← t.emit labels) ++ (← rest)) (some []) = some (is.flatMap encode) := by
  induction h with
  | nil => rfl
  | cons hst _ ih =>
    rw [List.foldr_cons, ih, hst]
    rfl

/-- Unlabelled lines assemble to the words of their statements, one after another. -/
theorem assembleLines_of_emit {sts : List AsmStmt} {is : List Instr}
    (h : List.Forall₂ (fun st i => AsmStmt.emit [] st = some (encode i)) sts is) :
    assembleLines (sts.map fun st => ⟨none, some st⟩) = some (is.flatMap encode) := by
  have hstmts : (sts.map fun st => (⟨none, some st⟩ : AsmLine)).filterMap AsmLine.stmt = sts := by
    rw [List.filterMap_map]
    exact List.filterMap_some
  simp only [assembleLines, asmLabels_of_unlabelled, hstmts, List.map_nil, List.nodup_nil, if_true]
  exact foldr_emit h

theorem assembleLines_numbers (is : List Instr) :
    assembleLines (is.map fun i => ⟨none, some (.instr i.opcode (i.params.map fun p => ⟨p.mode, .num p.word.toInt⟩))⟩) =
      some (is.flatMap encode) := by
  have hparam (i : Instr) : (i.params.map fun p => (⟨p.mode, .num p.word.toInt⟩ : AsmOperand)).mapM (AsmOperand.param? []) =
      some i.params :=
    mapM_eq_some_iff.mpr (List.forall₂_map_left_iff.mpr (List.forall₂_same.mpr fun p _ => param?_of_eval rfl))
  have hlines := assembleLines_of_emit
    (List.forall₂_map_left_iff.mpr (List.forall₂_same.mpr fun i (_ : i ∈ is) => emit_instr (hparam i)))
  rwa [List.map_map] at hlines

/-- The text of a program is split into the texts of its lines. -/
theorem splitText_lines {l : SourceStmt × List TextItem} {lines : List (SourceStmt × List TextItem)} :
    splitText '\n' (joinChars ['\n'] ((l :: lines).map fun l => l.1.chars l.2)) =
      (l :: lines).map fun l => l.1.chars l.2 := by
  have hline (p : List Char) (hp : p ∈ (l :: lines).map fun l => l.1.chars l.2) : '\n' ∉ p := by
    obtain ⟨q, -, rfl⟩ := List.mem_map.mp hp
    rw [SourceStmt.chars_eq]
    exact fun hc => absurd (mem_line q.1.mnemonic_solid (q.1.args_solid q.2) hc) (by decide)
  exact (splitText_joinChars (pad := []) List.not_mem_nil hline).trans (by simp)

/-- Settles O54: the lines are read one by one, and each emits the encoding of what it stands for. -/
theorem assemblerEmitsEncodings : Obligations.AssemblerEmitsEncodings := by
  refine ⟨assembleLines_numbers, fun lines hl => ?_⟩
  cases lines with
  | nil => rfl
  | cons l ls =>
    obtain ⟨sts, hsts⟩ := exists_forall₂ fun l h => lineText?_chars (hl l h)
    have hread : ((l :: ls).map fun l => l.1.chars l.2).mapM lineText? = some (sts.map fun st => ⟨none, some st⟩) :=
      mapM_eq_some_iff.mpr (List.forall₂_map_left_iff.mpr (List.forall₂_map_right_iff.mpr (hsts.imp fun _ _ h => h.1)))
    have hemit : List.Forall₂ (fun st i => AsmStmt.emit [] st = some (encode i)) sts ((l :: ls).map fun l => l.1.expand) :=
      List.forall₂_map_right_iff.mpr (hsts.imp fun _ _ h => h.2).flip
    rw [assembleText, splitText_lines, hread]
    exact (assembleLines_of_emit hemit).trans (by rw [List.flatMap_map])

end Sys2Proof.Machine
end

section
/-! PROOFS. What ADD, MUL, LT and EQ store, and the results that are no word (R400 to R405, R604). -/

namespace Sys2Proof.Machine

/-- An arithmetic or comparison instruction that does not fault puts its result at the destination's address, goes on by 4,
and changes nothing else (R400). -/
theorem exec_alu_stores_result {e : (Param → Param → Param → Instr) × (Word → Word → Except FaultDetail Word)}
    (he : e ∈ aluTable) {s : State} {a b d : Param} {x y r : Word} {c : Int} (hm : s.mem.wf) (hx : resolveSrc a s = .ok x)
    (hy : resolveSrc b s = .ok y) (hr : e.2 x y = .ok r) (hd : effAddr s.rb d = some c) (hb : s.inBounds c) :
    ∃ t, exec (e.1 a b d) s = .next t ∧ t.mem.read c.toNat = r ∧ (∀ n, n ≠ c.toNat → t.mem.read n = s.mem.read n) ∧
      t = { s with mem := t.mem, ip := s.ip + 4 } :=
  ⟨_, exec_alu_store he hx hy hr hd hb, Memory.read_write_same s.mem _ r hm,
    fun _ hn => Memory.read_write_other s.mem r hn, rfl⟩

/-- An instruction whose result is an exact integer in the word range stores that integer (R405). -/
theorem exec_alu_stores_exact {e : (Param → Param → Param → Instr) × (Word → Word → Except FaultDetail Word)}
    (he : e ∈ aluTable) {s : State} {a b d : Param} {x y : Word} {c v : Int} {op : ArithOp} (hm : s.mem.wf)
    (hx : resolveSrc a s = .ok x) (hy : resolveSrc b s = .ok y) (hv : e.2 x y = narrow op v) (hw : InWord v)
    (hd : effAddr s.rb d = some c) (hb : s.inBounds c) :
    ∃ t, exec (e.1 a b d) s = .next t ∧ (t.mem.read c.toNat).toInt = v ∧
      (∀ n, n ≠ c.toNat → t.mem.read n = s.mem.read n) ∧ t = { s with mem := t.mem, ip := s.ip + 4 } := by
  have hr : e.2 x y = .ok (Word.ofInt v) := hv.trans (narrow_ok.mpr ⟨hw, rfl⟩)
  obtain ⟨t, ht, hread, hrest⟩ := exec_alu_stores_result he hm hx hy hr hd hb
  exact ⟨t, ht, by rw [hread, Word.toInt_ofInt hw], hrest⟩

/-- An arithmetic instruction whose result is a fault raises it, whatever its destination: the result comes before the write
(R400). -/
theorem exec_alu_result_error {e : (Param → Param → Param → Instr) × (Word → Word → Except FaultDetail Word)}
    (he : e ∈ aluTable) {s : State} {a b : Param} {x y : Word} {f : FaultDetail} (d : Param) (hx : resolveSrc a s = .ok x)
    (hy : resolveSrc b s = .ok y) (hf : e.2 x y = .error f) : exec (e.1 a b d) s = .next (s.raise f) := by
  have : alu e.2 a b d s = .error f := by
    simp only [alu, hx, hy, bind, Except.bind, hf]
  rw [exec_aluTable he, this, State.settle_error]

/-- ARB faults when the new relative base would be no word (R460). -/
theorem exec_arb_overflow {s : State} {p : Param} {v : Word} (hv : resolveSrc p s = .ok v)
    (hw : ¬ InWord (s.rb.toInt + v.toInt)) :
    exec (.arb p) s = .next (s.raise (.arithmeticOverflow .arb (s.rb.toInt + v.toInt))) := by
  have hb : fArb s.rb v = .error (.arithmeticOverflow .arb (s.rb.toInt + v.toInt)) := narrow_error.mpr ⟨hw, rfl⟩
  simp only [exec, execArb, hv, bind, Except.bind, hb, State.settle_error]

/-- Settles O25. -/
theorem addStoresExactSum : Obligations.AddStoresExactSum :=
  fun _ _ _ _ _ _ _ hm hx hy hw hd hb =>
    exec_alu_stores_exact (e := (Instr.add, fAdd)) (by simp [aluTable]) hm hx hy rfl hw hd hb

/-- Settles O26. -/
theorem mulStoresExactProduct : Obligations.MulStoresExactProduct :=
  fun _ _ _ _ _ _ _ hm hx hy hw hd hb =>
    exec_alu_stores_exact (e := (Instr.mul, fMul)) (by simp [aluTable]) hm hx hy rfl hw hd hb

/-- Settles O27: a comparison always has a result. -/
theorem ltStoresSignedComparison : Obligations.LtStoresSignedComparison := by
  intro s a b d x y c hm hx hy hd hb
  obtain ⟨t, ht, hread, hrest⟩ :=
    exec_alu_stores_result (e := (Instr.lt, fLt)) (by simp [aluTable]) hm hx hy rfl hd hb
  exact ⟨t, ht, fun h => hread.trans (if_pos h), fun h => hread.trans (if_neg (not_lt.mpr h)), hrest⟩

/-- Settles O28: two words are equal exactly when they are the same integer. -/
theorem eqStoresEqualityTest : Obligations.EqStoresEqualityTest := by
  intro s a b d x y c hm hx hy hd hb
  obtain ⟨t, ht, hread, hrest⟩ :=
    exec_alu_stores_result (e := (Instr.eq, fEq)) (by simp [aluTable]) hm hx hy rfl hd hb
  exact ⟨t, ht, fun h => hread.trans (if_pos (BitVec.toInt_inj.mp h)),
    fun h => hread.trans (if_neg fun hxy => h (congrArg _ hxy)), hrest⟩

/-- Settles O29: the overflow is raised before the destination is looked at, so its record holds without that condition. -/
theorem resultOutsideWordRangeFaults : Obligations.ResultOutsideWordRangeFaults := by
  refine ⟨fun s a b d x y hx hy => ⟨fun hw => ?_, fun hw => ?_⟩, fun s p v hv hw => exec_arb_overflow hv hw, fun _ _ => rfl⟩
  · exact ⟨_, exec_alu_result_error (e := (Instr.add, fAdd)) (by simp [aluTable]) d hx hy (narrow_error.mpr ⟨hw, rfl⟩),
      fun _ _ _ => rfl⟩
  · exact ⟨_, exec_alu_result_error (e := (Instr.mul, fMul)) (by simp [aluTable]) d hx hy (narrow_error.mpr ⟨hw, rfl⟩),
      fun _ _ _ => rfl⟩

end Sys2Proof.Machine
end

section
/-! PROOFS. IN and OUT from their internal step to their last port step, and how the protocol ends (R421 to R426, R605, R606). -/

namespace Sys2Proof.Machine

/-- An IN whose request is accepted has sent `RequestInput` and waits for its answer. -/
theorem step_offerReq_accepts {s : State} {d : Param} {k : Nat} (hp : s.phase = .offerReq d) (hk : s.accepts = k + 1) :
    step s = .next { s with phase := .awaitIn d, accepts := k, trace := s.trace ++ [.send .requestInput] } := by
  rw [step_offer (by rw [hp]; rfl), offerStep_accepts .requestInput hk, accept_setAccepts, accept_offerReq hp]
  rfl

/-- An OUT whose value is accepted has sent it and is past itself. -/
theorem step_offerOut_accepts {s : State} {v : Word} {k : Nat} (hp : s.phase = .offerOut v) (hk : s.accepts = k + 1) :
    step s = .next { s with ip := s.ip + 2, phase := .ready, accepts := k, trace := s.trace ++ [.send (.data v)] } := by
  rw [step_offer (by rw [hp]; rfl), offerStep_accepts (.data v) hk, accept_setAccepts, accept_offerOut hp]
  rfl

/-- A waiting IN stores the data that comes, if its destination can be written, and is past itself. -/
theorem step_awaitIn_data {s : State} {d : Param} {v : Word} {c : Int} {as : List Answer} (hp : s.phase = .awaitIn d)
    (ha : s.answers = .message (.data v) :: as) (hd : effAddr s.rb d = some c) (hb : s.inBounds c) :
    step s = .next { s with mem := s.mem.write c.toNat v, ip := s.ip + 2, phase := .ready, answers := as,
                            trace := s.trace ++ [.recv (.message (.data v))] } := by
  rw [step_awaitIn hp, awaitStep_answers d ha, receive_data (s := { s with answers := as }) v hd hb]
  rfl

/-- Settles O35: IN offers its request, is accepted, and stores the answer. -/
theorem inputStoresTheAnswer : Obligations.InputStoresTheAnswer := by
  intro s d v c k as hm hp hi hk ha hd hb
  have h1 : step s = .next (s.setPhase (.offerReq d)) := stepRunsTheInstructionAtIp s (.inp d) hp hi
  have h2 := step_offerReq_accepts (s := s.setPhase (.offerReq d)) rfl hk
  have h3 := step_awaitIn_data (s := { s with phase := .awaitIn d, accepts := k, trace := s.trace ++ [.send .requestInput] })
    rfl ha hd hb
  refine ⟨_, (steps_succ 2 h1).trans ((steps_succ 1 h2).trans ((steps_one _).trans h3)),
    Memory.read_write_same s.mem _ v hm, fun _ hn => Memory.read_write_other s.mem v hn, ?_⟩
  simp [hp]

/-- Settles O36: an answer that is no data is the fault, whatever the destination. -/
theorem inputFaultsWithoutData : Obligations.InputFaultsWithoutData := by
  intro s d a as hp ha
  refine ⟨?_, ?_, fun _ => rfl, rfl⟩
  · rintro m rfl hdata
    cases m with
    | data v => exact absurd rfl (hdata v)
    | requestInput | shutdown => exact step_awaitIn_fault hp ha rfl
  · rintro rfl
    exact step_awaitIn_fault hp ha rfl

/-- Settles O37: the internal step of OUT only offers, and the environment alone decides whether a second step follows. -/
theorem outputSendsItsSource : Obligations.OutputSendsItsSource := by
  intro s p v hp hi hv
  have h1 : step s = .next (s.setPhase (.offerOut v)) := (stepRunsTheInstructionAtIp s (.out p) hp hi).trans (exec_out hv)
  have h2 : steps 2 s = step (s.setPhase (.offerOut v)) := (steps_succ 1 h1).trans (steps_one _)
  refine ⟨(steps_one s).trans h1, fun hk => ?_, fun k hk => ?_⟩
  · rw [h2, step_offer rfl]
    exact offerStep_silent (.data v) hk
  · rw [h2, step_offerOut_accepts (s := s.setPhase (.offerOut v)) rfl hk]
    simp [hp]

/-- A protocol once broken stays so. -/
theorem PortStand.foldl_after_broken (tr : List PortEvent) : tr.foldl PortStand.after .broken = .broken := by
  induction tr with
  | nil => rfl
  | cons e tr ih => exact ih

/-- Sending `Shutdown` ends the protocol where no request is open, and breaks it anywhere else. -/
theorem PortStand.after_shutdown (p : PortStand) :
    p.after (.send .shutdown) = .ended ∨ p.after (.send .shutdown) = .broken := by
  cases p <;> simp [PortStand.after]

/-- A trace that keeps the protocol and holds a `Shutdown` has it last. -/
theorem shutdown_last_of_not_broken {pre post : List PortEvent}
    (h : portStand (pre ++ .send .shutdown :: post) ≠ .broken) :
    post = [] ∧ portStand (pre ++ .send .shutdown :: post) = .ended := by
  have hsplit : portStand (pre ++ .send .shutdown :: post) =
      post.foldl PortStand.after ((portStand pre).after (.send .shutdown)) := by
    simp [portStand]
  rw [hsplit] at h ⊢
  rcases (portStand pre).after_shutdown with he | hb
  · rw [he] at h ⊢
    cases post with
    | nil => exact ⟨rfl, rfl⟩
    | cons e post => exact absurd (PortStand.foldl_after_broken post) h
  · rw [hb] at h
    exact absurd (PortStand.foldl_after_broken post) h

/-- Where the protocol invariant holds the protocol is not broken, and it has ended only in `Halted`. -/
theorem State.ProtocolInv.not_broken_and_halted_of_ended {s : State} (h : s.ProtocolInv) :
    portStand s.trace ≠ .broken ∧ (portStand s.trace = .ended → s.phase = .halted) := by
  cases hp : s.phase with
  | faulted f => rcases (State.protocolInv_of_faulted hp).mp h with hs | hs <;> simp [hs]
  | ready | offerOut | offerReq | awaitIn | offerShutdown | halted =>
    rw [State.protocolInv_iff (by rw [hp]; rfl), hp] at h
    simp [h, Phase.stand]

/-- Settles O47: anything after a `Shutdown` would break the protocol, and a trace that ends with one is a halted core's. -/
theorem shutdownIsLastAndHalts : Obligations.ShutdownIsLastAndHalts := by
  intro s hs
  obtain ⟨hbroken, hended⟩ := hs.not_broken_and_halted_of_ended
  have last : ∀ pre post, s.trace = pre ++ .send .shutdown :: post → post = [] ∧ s.phase = .halted := by
    intro pre post ht
    rw [ht] at hbroken hended
    obtain ⟨hpost, hstand⟩ := shutdown_last_of_not_broken hbroken
    exact ⟨hpost, hended hstand⟩
  refine ⟨last, fun hf hmem => ?_⟩
  obtain ⟨pre, post, ht⟩ := List.append_of_mem hmem
  rw [(last pre post ht).2] at hf
  cases hf

end Sys2Proof.Machine
end

section
/-! PROOFS. A jump and the fetch at its target (R442, decision D7). -/

namespace Sys2Proof.Machine

/-- A JT or JF that is taken goes to its target, whether or not memory has that address. -/
theorem exec_taken_jump {s : State} {i : Instr} {c g : Param} {x y : Word}
    (hi : i = .jt c g ∧ x.toInt ≠ 0 ∨ i = .jf c g ∧ x.toInt = 0) (hx : resolveSrc c s = .ok x)
    (hy : resolveSrc g s = .ok y) : exec i s = .next (s.jump y) := by
  rcases hi with ⟨rfl, h⟩ | ⟨rfl, h⟩
  · exact (jumpIfTrueSetsIp s c g x y hx hy).1 h
  · exact (jumpIfFalseSetsIp s c g x y hx hy).1 h

/-- Settles O32: the jump only sets `ip`, and the next step's fetch at that `ip` is out of bounds. -/
theorem badTargetFaultsAtNextFetch : Obligations.BadTargetFaultsAtNextFetch := by
  intro s i c g x y hp hat hi hx hy hb
  have h1 : step s = .next (s.jump y) := (stepRunsTheInstructionAtIp s i hp hat).trans (exec_taken_jump hi hx hy)
  have h2 := outOfBoundsAccessesFault.1 (s.jump y) hp hb
  exact ⟨(steps_one s).trans h1, (steps_succ 1 h1).trans ((steps_one _).trans h2)⟩

end Sys2Proof.Machine
end

section
/-! PROOFS. ARB and the relative base (R460). -/

namespace Sys2Proof.Machine

/-- Settles O33: `exec_arb` gives the whole next state, and a sum in the word range reads back as itself. -/
theorem arbAddsToRelativeBase : Obligations.ArbAddsToRelativeBase :=
  fun _ _ _ hv hw => ⟨_, exec_arb hv hw, Word.toInt_ofInt hw, rfl⟩

end Sys2Proof.Machine
end

section
/-! PROOFS. The two ways to a normal end: HLT offers `Shutdown`, and its acceptance halts (R480, R481). -/

namespace Sys2Proof.Machine

/-- From `Ready` an instruction's internal step never reaches `Halted`, and only HLT's reaches `OfferShutdown`. -/
theorem exec_ending_phase {i : Instr} {s t : State} (hp : s.phase = .ready) (h : exec i s = .next t) :
    t.phase ≠ .halted ∧ (t.phase = .offerShutdown → i = .hlt) := by
  rcases exec_phase_cases h with ⟨ht, -⟩ | ⟨d, rfl⟩ | ⟨d, -, rfl⟩ | ⟨p, v, -, -, rfl⟩ | ⟨hi, rfl⟩
  · simp [ht, hp]
  · simp
  · simp
  · simp
  · simp [hi]

/-- An accepted offer halts the core only if it is `Shutdown`, and leaves no `Shutdown` on offer. -/
theorem accept_ending_phase {s : State} {m : Message} (hm : s.phase.offer? = some m) :
    ((s.accept m).phase = .halted → s.phase = .offerShutdown ∧ m = .shutdown) ∧ (s.accept m).phase ≠ .offerShutdown := by
  rcases Phase.offer?_eq_some.mp hm with ⟨v, hp, -⟩ | ⟨d, hp, -⟩ | ⟨hp, hs⟩
  · simp [accept_offerOut hp]
  · simp [accept_offerReq hp]
  · simp [accept_offerShutdown hp, hp, hs]

/-- An answered IN goes on in `Ready` or has faulted. -/
theorem receive_phase (d : Param) (a : Answer) (s : State) :
    (s.receive d a).phase = .ready ∨ ∃ f, (s.receive d a).phase = .faulted f := by
  rcases receive_cases d a s with ⟨v, c, -, -, -, ht⟩ | ⟨e, ht⟩
  · exact .inl (by rw [ht])
  · exact .inr ⟨_, by rw [ht]; rfl⟩

/-- Settles O49, by the cases of a step: an acceptance is the one that can halt, and an internal step the one that can offer
`Shutdown`; a fault and an answer do neither. -/
theorem onlyHaltEndsNormally : Obligations.OnlyHaltEndsNormally := by
  intro s t h
  rcases step_cases h with ⟨hp, i, hf, hi⟩ | ⟨-, d, -, rfl⟩ | ⟨m, k, hm, -, rfl⟩ | ⟨d, a, as, -, -, rfl⟩
  · obtain ⟨hhalt, hoffer⟩ := exec_ending_phase hp hi
    exact ⟨fun ht => absurd ht hhalt, fun ht => ⟨hp, hoffer ht ▸ hf⟩⟩
  · simp
  · obtain ⟨hhalt, hoffer⟩ := accept_ending_phase (s := { s with accepts := k }) hm
    refine ⟨fun ht => ?_, fun ht => absurd ht hoffer⟩
    obtain ⟨hp, rfl⟩ := hhalt ht
    exact ⟨hp, accept_trace ..⟩
  · rcases receive_phase d a { s with answers := as } with hp | ⟨f, hp⟩ <;> simp [hp]

end Sys2Proof.Machine
end

section
/-! PROOFS. Nothing outside reaches a core that is Ready (R620, R621, decision D20): its step only carries along what the
environment will do and the trace. -/

namespace Sys2Proof.Machine

/-- The state with another environment and another port trace. -/
def State.withPort (k : Nat) (as : List Answer) (tr : List PortEvent) (s : State) : State :=
  { s with accepts := k, answers := as, trace := tr }

section
variable (k : Nat) (as : List Answer) (tr : List PortEvent)

@[simp] theorem advance_withPort (n : Nat) (s : State) :
    (s.withPort k as tr).advance n = (s.advance n).withPort k as tr := rfl

@[simp] theorem jump_withPort (v : Word) (s : State) :
    (s.withPort k as tr).jump v = (s.jump v).withPort k as tr := rfl

@[simp] theorem withPort_rb (s : State) : (s.withPort k as tr).rb = s.rb := rfl

@[simp] theorem resolveSrc_withPort (p : Param) (s : State) : resolveSrc p (s.withPort k as tr) = resolveSrc p s :=
  resolveSrc_congr p rfl rfl rfl

@[simp] theorem memWrite_withPort (a : Int) (v : Word) (s : State) :
    memWrite a v (s.withPort k as tr) = State.withPort k as tr <$> memWrite a v s := by
  by_cases h : s.inBounds a
  · rw [memWrite_ok.mpr ⟨h, rfl⟩]
    exact memWrite_ok.mpr ⟨h, rfl⟩
  · rw [memWrite_error.mpr ⟨h, rfl⟩]
    exact memWrite_error.mpr ⟨h, rfl⟩

@[simp] theorem writeDst_withPort (p : Param) (n : Nat) (v : Word) (s : State) :
    writeDst p n v (s.withPort k as tr) = State.withPort k as tr <$> writeDst p n v s := by
  unfold writeDst
  rw [withPort_rb]
  cases effAddr s.rb p with
  | none => rfl
  | some a => exact memWrite_withPort k as tr a v s

@[simp] theorem alu_withPort (f : Word → Word → Except FaultDetail Word) (a b d : Param) (s : State) :
    alu f a b d (s.withPort k as tr) = State.withPort k as tr <$> alu f a b d s := by
  simp [alu]

@[simp] theorem condJump_withPort (taken : Word → Bool) (c g : Param) (s : State) :
    condJump taken c g (s.withPort k as tr) = State.withPort k as tr <$> condJump taken c g s := by
  simp [condJump, apply_ite (State.withPort k as tr)]

/-- What an instruction ends with carries the port fields along if what it computed does; a fault's record names none of
them. -/
@[simp] theorem settle_withPort (s : State) (x : Except FaultDetail State) :
    (s.withPort k as tr).settle (State.withPort k as tr <$> x) = (s.settle x).withPort k as tr := by
  cases x <;> rfl

/-- An instruction's internal step does the same in every environment and after every trace, and carries them along. -/
theorem exec_withPort {i : Instr} {s t : State} (h : exec i s = .next t) :
    exec i (s.withPort k as tr) = .next (t.withPort k as tr) := by
  cases i with
  | add | mul | lt | eq =>
    cases h
    simp [exec, execAdd, execMul, execLt, execEq]
  | jt | jf =>
    cases h
    simp [exec, execJt, execJf]
  | inp | hlt =>
    cases h
    rfl
  | out p =>
    cases h
    simp only [exec, execOut, resolveSrc_withPort]
    cases resolveSrc p s <;> rfl
  | arb p =>
    cases h
    simp only [exec, execArb, resolveSrc_withPort]
    cases resolveSrc p s with
    | error => rfl
    | ok v =>
      simp only [bind, Except.bind, withPort_rb]
      cases fArb s.rb v <;> rfl

end

/-- Settles O20: the fetch looks at memory and `ip` only, and the instruction, or its decoding fault, carries the port fields
along. -/
theorem readyStepIgnoresEnvironment : Obligations.ReadyStepIgnoresEnvironment := by
  intro s t k as tr hp h
  have hfetch : fetch (s.withPort k as tr) = fetch s := fetch_congr rfl rfl rfl
  cases hf : fetch s with
  | ok i =>
    rw [step_of_fetch hp hf] at h
    exact (step_of_fetch (s := s.withPort k as tr) hp (hfetch.trans hf)).trans (exec_withPort k as tr h)
  | error d =>
    rw [step_of_fetch_error hp hf] at h
    cases h
    exact step_of_fetch_error hp (hfetch.trans hf)

end Sys2Proof.Machine
end

section
/-! PROOFS. Faults are precise (R607, R611, R613, decision D13). -/

namespace Sys2Proof.Machine

/-- The six fault codes are 1 to 6 (R600). -/
theorem FaultRecord.code_bounds (f : FaultRecord) : 1 ≤ f.code ∧ f.code ≤ 6 := by
  obtain ⟨ip, word, detail⟩ := f
  cases detail <;> simp [FaultRecord.code, FaultDetail.code]

/-- From `Ready` an instruction's internal step enters `Faulted` only by raising a fault in the state it started from. -/
theorem exec_fault {i : Instr} {s t : State} {f : FaultRecord} (hp : s.phase = .ready) (h : exec i s = .next t)
    (ht : t.phase = .faulted f) : ∃ e, t = s.raise e := by
  rcases exec_phase_cases h with ⟨hs, -⟩ | hraise | ⟨d, -, rfl⟩ | ⟨p, v, -, -, rfl⟩ | ⟨-, rfl⟩
  · simp [hs, hp] at ht
  · exact hraise
  · cases ht
  · cases ht
  · cases ht

/-- The acceptance of an offer is never a fault. -/
theorem accept_phase_ne_faulted {s : State} {m : Message} (hm : s.phase.offer? = some m) (f : FaultRecord) :
    (s.accept m).phase ≠ .faulted f := by
  rcases Phase.offer?_eq_some.mp hm with ⟨v, hp, -⟩ | ⟨d, hp, -⟩ | ⟨hp, -⟩
  · simp [accept_offerOut hp]
  · simp [accept_offerReq hp]
  · simp [accept_offerShutdown hp]

/-- An answered IN enters `Faulted` only by raising a fault once the answer is recorded. -/
theorem receive_fault_cases {s : State} {d : Param} {a : Answer} {f : FaultRecord}
    (ht : (s.receive d a).phase = .faulted f) : ∃ e, s.receive d a = (s.logPort (.recv a)).raise e := by
  rcases receive_cases d a s with ⟨v, c, -, -, -, hs⟩ | hraise
  · rw [hs] at ht
    cases ht
  · exact hraise

/-- The two ways into `Faulted`: a fault raised by the internal step, and one raised by an IN that has taken its answer. -/
theorem step_fault_cases {s t : State} {f : FaultRecord} (h : step s = .next t) (ht : t.phase = .faulted f) :
    (s.phase = .ready ∧ ∃ e, t = s.raise e) ∨
    ∃ d a as e, s.phase = .awaitIn d ∧ s.answers = a :: as ∧
      t = (State.logPort (.recv a) { s with answers := as }).raise e := by
  rcases step_cases h with ⟨hp, i, -, hi⟩ | ⟨hp, e, -, rfl⟩ | ⟨m, k, hm, -, rfl⟩ | ⟨d, a, as, hp, ha, rfl⟩
  · exact .inl ⟨hp, exec_fault hp hi ht⟩
  · exact .inl ⟨hp, e, rfl⟩
  · exact absurd ht (accept_phase_ne_faulted (s := { s with accepts := k }) hm f)
  · obtain ⟨e, he⟩ := receive_fault_cases ht
    exact .inr ⟨d, a, as, e, hp, ha, he⟩

/-- Settles O48: either way into `Faulted` the fault is raised in a state that has the memory, `ip` and `rb` of before. -/
theorem faultsArePrecise : Obligations.FaultsArePrecise := by
  intro s t f h ht
  obtain ⟨hlow, hhigh⟩ := f.code_bounds
  rcases step_fault_cases h ht with ⟨hp, e, rfl⟩ | ⟨d, a, as, e, hp, ha, rfl⟩
  · cases ht
    exact ⟨rfl, rfl, rfl, rfl, rfl, rfl, rfl, hlow, hhigh, .inl ⟨hp, rfl⟩⟩
  · cases ht
    exact ⟨rfl, rfl, rfl, rfl, rfl, rfl, rfl, hlow, hhigh, .inr ⟨d, a, hp, ha, rfl⟩⟩

end Sys2Proof.Machine
end

section
/-! PROOFS. A loop of one instruction never ends (R650, R440). -/

namespace Sys2Proof.Machine

/-- A state that steps to itself stays there for any number of steps. -/
theorem steps_of_step_self {s : State} (h : step s = .next s) (k : Nat) : steps k s = .next s := by
  induction k with
  | zero => exact steps_zero s
  | succ k ih => exact (steps_succ k h).trans ih

/-- Settles O52: the jump sets `ip` to its Immediate target 0, where it stands, and changes nothing else. -/
theorem tightLoopNeverEnds : Obligations.TightLoopNeverEnds := by
  intro s k hp hip hat
  have hjump : exec (pseudoJmp (.imm 0)) s = .next { s with ip := 0 } :=
    (pseudoInstructionsAct s (.imm 0) (.imm 0) 0 rfl).2.1
  have hself : { s with ip := 0 } = s := by rw [← hip]
  exact steps_of_step_self ((stepRunsTheInstructionAtIp s _ hp hat).trans (hself ▸ hjump)) k

end Sys2Proof.Machine
end

section
/-! PROOFS. The reset of a loaded machine and its first step (R700, R701). -/

namespace Sys2Proof.Machine

/-- Below the first address of the loaded words no cell is listed. -/
theorem Memory.read_ofWords_below {a n : Nat} (ws : List Word) (h : n < a) : (Memory.ofWords a ws).read n = 0 := by
  induction ws generalizing a with
  | nil => rfl
  | cons w ws ih =>
    rw [Memory.ofWords]
    split
    · exact ih (Nat.lt_succ_of_lt h)
    · rw [Memory.read, if_neg (Nat.ne_of_lt h)]
      exact ih (Nat.lt_succ_of_lt h)

/-- A loaded memory holds the loaded words from its first address on, and 0 after them. -/
theorem Memory.read_ofWords (a n : Nat) (ws : List Word) : (Memory.ofWords a ws).read (a + n) = (ws[n]?).getD 0 := by
  induction ws generalizing a n with
  | nil => rfl
  | cons w ws ih =>
    have hlater (m : Nat) : (Memory.ofWords (a + 1) ws).read (a + (m + 1)) = (ws[m]?).getD 0 := by
      rw [← ih (a + 1) m, Nat.add_assoc, Nat.add_comm 1 m]
    rw [Memory.ofWords]
    cases n with
    | zero =>
      split
      · rename_i hw
        exact (Memory.read_ofWords_below ws (Nat.lt_succ_self a)).trans hw.symm
      · exact if_pos rfl
    | succ m =>
      split
      · exact hlater m
      · rw [Memory.read, if_neg (by omega)]
        exact hlater m

theorem start_read (cfg : Config) (prog : List Word) (k : Nat) (as : List Answer) (a : Nat) :
    (State.start cfg prog k as).mem.read a = (prog[a]?).getD 0 := by
  rw [← Memory.read_ofWords 0 a prog, Nat.zero_add]
  rfl

/-- A program that fits stands at `ip` after reset. -/
theorem start_wordsAtIp {cfg : Config} {prog : List Word} (k : Nat) (as : List Answer) (h : prog.length ≤ cfg.arenaSize) :
    (State.start cfg prog k as).wordsAtIp prog := by
  intro n w hn
  obtain ⟨hlt, -⟩ := List.getElem?_eq_some_iff.mp hn
  have hip : (State.start cfg prog k as).ip.toInt + n = n := Int.zero_add _
  rw [hip]
  refine ⟨⟨Int.natCast_nonneg n, Int.ofNat_lt.mpr (Nat.lt_of_lt_of_le hlt h)⟩, ?_⟩
  rw [Int.toNat_natCast, start_read, hn, Option.getD_some]

/-- Settles O1. -/
theorem resetHoldsProgramThenZeros : Obligations.ResetHoldsProgramThenZeros :=
  ⟨fun cfg prog k as => ⟨start_read cfg prog k as, rfl, rfl, rfl⟩, rfl, rfl, rfl, rfl⟩

/-- Settles O2: the program stands at `ip`, where it is decoded as its list of words is. -/
theorem firstStepRunsAddressZero : Obligations.FirstStepRunsAddressZero :=
  fun _ _ _ _ k as hfit hd => step_of_fetch rfl (fetch_of_decode (start_wordsAtIp k as hfit) hd)

end Sys2Proof.Machine
end

section
/-! PROOFS. The program text: which texts read as integers, and which of those are loaded (R702, R703, decision D19). -/

namespace Sys2Proof.Machine

/-! The digits and the sign of one item. -/

theorem exists_digitChar_of_digitValue? {c : Char} {n : Nat} (h : digitValue? c = some n) :
    ∃ d : Fin 10, c = Char.ofNat (48 + d.val) := by
  unfold digitValue? at h
  split at h
  · rename_i hc
    refine ⟨⟨c.toNat - 48, by omega⟩, ?_⟩
    rw [Nat.add_sub_cancel' hc.1, Char.ofNat_toNat]
  · cases h

theorem exists_digits_of_digitsFrom? {acc n : Nat} {cs : List Char} (h : digitsFrom? acc cs = some n) :
    ∃ ds : List (Fin 10), cs = ds.map fun d => Char.ofNat (48 + d.val) := by
  induction cs generalizing acc with
  | nil => exact ⟨[], rfl⟩
  | cons c cs ih =>
    rw [digitsFrom?] at h
    split at h
    · rename_i d hc
      obtain ⟨d, rfl⟩ := exists_digitChar_of_digitValue? hc
      obtain ⟨ds, rfl⟩ := ih h
      exact ⟨d :: ds, rfl⟩
    · cases h

theorem exists_digits_of_natText? {n : Nat} {cs : List Char} (h : natText? cs = some n) :
    ∃ ds : List (Fin 10), ds ≠ [] ∧ cs = ds.map fun d => Char.ofNat (48 + d.val) := by
  cases cs with
  | nil => cases h
  | cons c cs =>
    obtain ⟨ds, hds⟩ := exists_digits_of_digitsFrom? h
    refine ⟨ds, ?_, hds⟩
    rintro rfl
    cases hds

/-- Only the text of an item reads as an integer: after a `-` or without one, one or more digits. -/
theorem exists_item_of_intText? {v : Int} {cs : List Char} (h : intText? cs = some v) :
    ∃ t : TextItem, t.digits ≠ [] ∧ cs = t.chars := by
  cases cs with
  | nil => cases h
  | cons c cs =>
    rw [intText?] at h
    split at h
    · rename_i hc
      obtain ⟨n, hn, -⟩ := Option.map_eq_some_iff.mp h
      obtain ⟨ds, hne, rfl⟩ := exists_digits_of_natText? hn
      exact ⟨⟨true, ds⟩, hne, by rw [hc]; rfl⟩
    · obtain ⟨n, hn, -⟩ := Option.map_eq_some_iff.mp h
      obtain ⟨ds, hne, hds⟩ := exists_digits_of_natText? hn
      exact ⟨⟨false, ds⟩, hne, hds⟩

theorem intText?_eq_some_iff {v : Int} {cs : List Char} :
    intText? cs = some v ↔ ∃ t : TextItem, t.digits ≠ [] ∧ cs = t.chars ∧ v = t.value := by
  constructor
  · intro h
    obtain ⟨t, ht, rfl⟩ := exists_item_of_intText? h
    exact ⟨t, ht, rfl, Option.some.inj (h.symm.trans (intText?_chars ht))⟩
  · rintro ⟨t, ht, rfl, rfl⟩
    exact intText?_chars ht

/-- Pieces all read as integers exactly when they are the texts of items. -/
theorem mapM_intText?_eq_some_iff {gs : List (List Char)} {vs : List Int} :
    gs.mapM intText? = some vs ↔
      ∃ items : List TextItem, (∀ t ∈ items, t.digits ≠ []) ∧ gs = items.map TextItem.chars ∧ vs = items.map TextItem.value := by
  rw [mapM_eq_some_iff]
  constructor
  · intro h
    induction h with
    | nil => exact ⟨[], by simp⟩
    | cons hg _ ih =>
      obtain ⟨t, ht, rfl, rfl⟩ := intText?_eq_some_iff.mp hg
      obtain ⟨items, hitems, rfl, rfl⟩ := ih
      exact ⟨t :: items, List.forall_mem_cons.mpr ⟨ht, hitems⟩, rfl, rfl⟩
  · rintro ⟨items, hitems, rfl, rfl⟩
    exact List.forall₂_map_left_iff.mpr (List.forall₂_map_right_iff.mpr
      (List.forall₂_same.mpr fun t ht => intText?_chars (hitems t ht)))

/-! The commas between the items. -/

theorem splitText_ne_nil (sep : Char) (cs : List Char) : splitText sep cs ≠ [] := by
  cases cs with
  | nil => exact List.cons_ne_nil _ _
  | cons c cs =>
    rw [splitText]
    split
    · exact List.cons_ne_nil _ _
    · split <;> exact List.cons_ne_nil _ _

theorem joinChars_cons_cons (sep : List Char) (c : Char) (g : List Char) (gs : List (List Char)) :
    joinChars sep ((c :: g) :: gs) = c :: joinChars sep (g :: gs) := by
  cases gs <;> rfl

/-- The pieces of a text, joined by the separator again, are the text. -/
theorem joinChars_splitText (sep : Char) (cs : List Char) : joinChars [sep] (splitText sep cs) = cs := by
  induction cs with
  | nil => rfl
  | cons c cs ih =>
    obtain ⟨g, gs, hg⟩ := List.exists_cons_of_ne_nil (splitText_ne_nil sep cs)
    rw [hg] at ih
    rw [splitText, hg]
    split
    · rename_i hc
      rw [joinChars, ih, hc]
      rfl
    · rw [joinChars_cons_cons, ih]

theorem itemsChars_eq_joinChars (items : List TextItem) : itemsChars items = joinChars [','] (items.map TextItem.chars) := by
  induction items with
  | nil => rfl
  | cons t items ih =>
    cases items with
    | nil => rfl
    | cons u items =>
      rw [itemsChars, ih]
      exact (List.append_assoc t.chars [','] _).symm

theorem splitText_eq_map_chars_iff {cs : List Char} {items : List TextItem} :
    splitText ',' cs = items.map TextItem.chars ↔ items ≠ [] ∧ cs = itemsChars items := by
  constructor
  · intro h
    refine ⟨?_, ?_⟩
    · rintro rfl
      exact splitText_ne_nil ',' cs h
    · rw [itemsChars_eq_joinChars, ← h, joinChars_splitText]
  · rintro ⟨hne, rfl⟩
    obtain ⟨t, items, rfl⟩ := List.exists_cons_of_ne_nil hne
    have hcomma (p : List Char) (hp : p ∈ (t :: items).map TextItem.chars) : ',' ∉ p := by
      obtain ⟨u, -, rfl⟩ := List.mem_map.mp hp
      exact fun hc => absurd (plain_of_mem_chars hc) (by decide)
    rw [itemsChars_eq_joinChars]
    exact (splitText_joinChars (pad := []) List.not_mem_nil hcomma).trans (by simp)

/-! The white space around the text. -/

/-- The text of one or more items neither is empty nor begins or ends with white space. -/
theorem itemsChars_trimmed {items : List TextItem} (hne : items ≠ []) (h : ∀ t ∈ items, t.digits ≠ []) :
    itemsChars items ≠ [] ∧ Trimmed (itemsChars items) := by
  obtain ⟨t, items, rfl⟩ := List.exists_cons_of_ne_nil hne
  have hsolid (p : List Char) (hp : p ∈ (t :: items).map TextItem.chars) : Solid p := by
    obtain ⟨u, hu, rfl⟩ := List.mem_map.mp hp
    exact ⟨List.append_ne_nil_of_right_ne_nil _ (by simpa using h u hu), fun c hc => (plain_of_mem_chars hc).1⟩
  rw [itemsChars_eq_joinChars]
  exact joinChars_trimmed [','] hsolid

/-- Trimming takes white space away at both ends, and nothing else. -/
theorem exists_append_trimText (cs : List Char) :
    ∃ pre post, cs = pre ++ trimText cs ++ post ∧ (∀ c ∈ pre, c.isWhitespace = true) ∧ ∀ c ∈ post, c.isWhitespace = true := by
  refine ⟨cs.takeWhile Char.isWhitespace, (cs.dropWhile Char.isWhitespace).rtakeWhile Char.isWhitespace, ?_,
    fun c hc => List.mem_takeWhile_imp hc, fun c hc => List.mem_rtakeWhile_imp hc⟩
  have hback : trimText cs ++ (cs.dropWhile Char.isWhitespace).rtakeWhile Char.isWhitespace = cs.dropWhile Char.isWhitespace :=
    List.rdropWhile_append_rtakeWhile
  rw [List.append_assoc, hback, List.takeWhile_append_dropWhile]

/-- White space around a trimmed text is taken away. -/
theorem trimText_append_append {pre cs post : List Char} (hne : cs ≠ []) (h : Trimmed cs)
    (hpre : ∀ c ∈ pre, c.isWhitespace = true) (hpost : ∀ c ∈ post, c.isWhitespace = true) :
    trimText (pre ++ cs ++ post) = cs := by
  have hfront : (pre ++ cs ++ post).dropWhile Char.isWhitespace = cs ++ post := by
    obtain ⟨c, cs, rfl⟩ := List.exists_cons_of_ne_nil hne
    rw [List.append_assoc, List.dropWhile_append_of_pos hpre]
    exact List.dropWhile_cons_of_neg (by simp [h.1 c rfl])
  rw [trimText, hfront, List.reverse_append, List.dropWhile_append_of_pos (by simpa using hpost)]
  exact List.rdropWhile_eq_self_iff.mpr fun hl => by simp [h.2 _ (List.getLast?_eq_some_getLast hl)]

/-! The whole text, and loading it. -/

/-- A text reads as integers exactly when, trimmed, it is one or more items with commas between them. -/
theorem programText?_eq_some_iff {cs : List Char} {vs : List Int} :
    programText? cs = some vs ↔
      ∃ items : List TextItem, items ≠ [] ∧ (∀ t ∈ items, t.digits ≠ []) ∧ trimText cs = itemsChars items ∧
        vs = items.map TextItem.value := by
  rw [programText?, mapM_intText?_eq_some_iff]
  refine exists_congr fun items => ?_
  rw [splitText_eq_map_chars_iff, and_assoc, and_left_comm]

/-- Settles O3: the text is trimmed, split at its commas, and read item by item. -/
theorem programTextReadsItsIntegers : Obligations.ProgramTextReadsItsIntegers := by
  intro cs vs
  rw [programText?_eq_some_iff]
  constructor
  · rintro ⟨items, hne, hdigits, htrim, rfl⟩
    obtain ⟨pre, post, hcs, hpre, hpost⟩ := exists_append_trimText cs
    exact ⟨pre, post, items, htrim ▸ hcs, hpre, hpost, hne, hdigits, rfl⟩
  · rintro ⟨pre, post, items, rfl, hpre, hpost, hne, hdigits, rfl⟩
    obtain ⟨hne', ht⟩ := itemsChars_trimmed hne hdigits
    exact ⟨items, hne, hdigits, trimText_append_append hne' ht hpre hpost, rfl⟩

theorem map_ofInt_eq_iff {vs : List Int} {ws : List Word} (h : ∀ v ∈ vs, InWord v) :
    vs.map Word.ofInt = ws ↔ ws.map BitVec.toInt = vs := by
  constructor
  · rintro rfl
    rw [List.map_map]
    exact (List.map_congr_left fun v hv => Word.toInt_ofInt (h v hv)).trans (List.map_id vs)
  · rintro rfl
    rw [List.map_map]
    exact (List.map_congr_left fun w _ => Word.ofInt_toInt w).trans (List.map_id ws)

/-- Integers are taken as words exactly when all are in the word range and there is room for them. -/
theorem programWords_eq_ok_iff {cfg : Config} {vs : List Int} {ws : List Word} :
    programWords cfg vs = .ok ws ↔ (∀ v ∈ vs, InWord v) ∧ vs.length ≤ cfg.arenaSize ∧ ws.map BitVec.toInt = vs := by
  unfold programWords
  split
  · rename_i hall
    have hrange : ∀ v ∈ vs, InWord v := fun v hv => of_decide_eq_true (List.all_eq_true.mp hall v hv)
    split
    · rename_i hlen
      rw [Except.ok.injEq, map_ofInt_eq_iff hrange]
      exact ⟨fun h => ⟨hrange, hlen, h⟩, fun ⟨_, _, h⟩ => h⟩
    · rename_i hlen
      exact iff_of_false nofun fun ⟨_, h, _⟩ => hlen h
  · rename_i hall
    exact iff_of_false nofun fun ⟨h, _⟩ => hall (List.all_eq_true.mpr fun v hv => decide_eq_true (h v hv))

/-- Settles O4. -/
theorem loadAcceptsExactlyFittingPrograms : Obligations.LoadAcceptsExactlyFittingPrograms := by
  intro cfg cs ws
  unfold loadText
  cases programText? cs with
  | none => exact iff_of_false nofun fun ⟨_, h, _⟩ => nomatch h
  | some vs => simp only [programWords_eq_ok_iff, Option.some.injEq, exists_eq_left']

end Sys2Proof.Machine
end
